-- ==== Sys2Proof/Word.lean ====
section
/-! DEFINITION. The two word types of the hardware (00_scope.md R5, R8): the 8-bit byte of every register and
memory location, and the 16-bit address. Arithmetic on them wraps modulo 256 and modulo 65536 by the type. -/

namespace Sys2Proof

/-- A byte: a general register, `SP`, a memory location, an instruction byte (00_scope.md R5). -/
abbrev Byte := BitVec 8

/-- A 16-bit address: `PC`, an effective address, a vector (00_scope.md R5). -/
abbrev Addr := BitVec 16

end Sys2Proof
end

