-- ==== Sys2Proof/Config.lean ====
section
/-! DEFINITION. The defaults of the parameters `UNDEF_LEN` and `UNDEF_CYCLES` (00_scope.md R7, 10_state.md R36), and what an
unlisted address reads as. The parameters themselves are `Sys2Proof.Params`; the default of `DISPATCH` is
`Sys2Proof.dispatchTable`; the parameter `MEM0` is the argument of `Sys2Proof.Machine.State.powerOn`. -/

namespace Sys2Proof.Config

/-- The default of `UNDEF_LEN`: the length in bytes of an undefined opcode (00_scope.md R7, 30_encoding.md R87; the spec's decision D5,
assumption log 5). -/
def undefLen : Nat := 1

/-- The default of `UNDEF_CYCLES`: the cycle cost of an undefined opcode (00_scope.md R7, 48_flags_nop_system.md R211; the spec's
decision D5, assumption log 5). -/
def undefCycles : Nat := 2

/-- What an address the memory list does not name reads as. DESIGN CHOICE, unsafe: the spec gives `MEM0` no default
(20_memory.md R51; assumption log 1). -/
def unlistedByte : Byte := 0x00

end Sys2Proof.Config
end

