-- ==== Sys2Proof/Syntax.lean ====
section
/-! DEFINITION. The instruction set as syntax: the thirteen addressing modes (40_addressing_modes.md R100), the operand
form of each with its operand bytes assembled (30_encoding.md R84), the 56 mnemonics and the undefined opcode
(30_encoding.md R85, R87), and the instructions. The rows of one mnemonic in spec/opcode_table.json differ only in
their mode and are one constructor with its operand; the 105 UNDEF rows are one constructor with its byte
(assumption log 23). -/

namespace Sys2Proof

/-- The thirteen operand forms by name (40_addressing_modes.md R100; 90_conflicts.md C4). -/
inductive Mode where
  /-- Implied, no operand byte (R110). -/
  | imp
  /-- The accumulator (R111). -/
  | acc
  /-- Immediate (R109). -/
  | imm
  /-- Zero page (R103). -/
  | zp
  /-- Zero page indexed by `X` (R101). -/
  | zpx
  /-- Zero page indexed by `Y` (R102). -/
  | zpy
  /-- Absolute (R114). -/
  | abs
  /-- Absolute indexed by `X` (R104). -/
  | absx
  /-- Absolute indexed by `Y` (R105). -/
  | absy
  /-- Indirect (R106). -/
  | ind
  /-- Indexed indirect, (Indirect,X) (R107). -/
  | indx
  /-- Indirect indexed, (Indirect),Y (R108). -/
  | indy
  /-- Relative (R112). -/
  | rel
  deriving DecidableEq, Repr

/-- An operand: its mode with the operand bytes assembled. A one-byte operand is that byte; a two-byte operand is the
little-endian 16-bit value (30_encoding.md R84). -/
inductive Operand where
  /-- Implied, no operand byte (R110). -/
  | imp
  /-- The accumulator (R111). -/
  | acc
  /-- Immediate (R109). -/
  | imm (value : Byte)
  /-- Zero page (R103). -/
  | zp (addr : Byte)
  /-- Zero page indexed by `X` (R101). -/
  | zpx (addr : Byte)
  /-- Zero page indexed by `Y` (R102). -/
  | zpy (addr : Byte)
  /-- Absolute (R114). -/
  | abs (addr : Addr)
  /-- Absolute indexed by `X` (R104). -/
  | absx (base : Addr)
  /-- Absolute indexed by `Y` (R105). -/
  | absy (base : Addr)
  /-- Indirect (R106). -/
  | ind (pointer : Addr)
  /-- Indexed indirect, (Indirect,X) (R107). -/
  | indx (pointer : Byte)
  /-- Indirect indexed, (Indirect),Y (R108). -/
  | indy (pointer : Byte)
  /-- Relative (R112). -/
  | rel (offset : Byte)
  deriving DecidableEq, Repr

/-- The mode of an operand. -/
def Operand.mode : Operand → Mode
  | .imp => .imp
  | .acc => .acc
  | .imm _ => .imm
  | .zp _ => .zp
  | .zpx _ => .zpx
  | .zpy _ => .zpy
  | .abs _ => .abs
  | .absx _ => .absx
  | .absy _ => .absy
  | .ind _ => .ind
  | .indx _ => .indx
  | .indy _ => .indy
  | .rel _ => .rel

/-- The 56 mnemonics of the instruction set, and the undefined opcode (30_encoding.md R85, R87). -/
inductive Mnemonic where
  | lda | ldx | ldy | sta | stx | sty | tax | tay | txa | tya | tsx | txs | pha | php
  | pla | plp | and | ora | eor | bit | asl | lsr | rol | ror | adc | sbc | cmp | cpx
  | cpy | inc | dec | inx | iny | dex | dey | jmp | jsr | rts | bcc | bcs | beq | bne
  | bmi | bpl | bvc | bvs | clc | cld | cli | clv | sec | sed | sei | nop | brk | rti
  | undef
  deriving DecidableEq, Repr

/-- The instructions. A constructor with several operand forms carries an `Operand` (which forms exist is
`Instr.wf` of `Sys2Proof/WellFormed.lean`); a branch carries its offset byte, JSR its target, an undefined opcode its
byte; every other instruction has no operand. -/
inductive Instr where
  /-- LDA, load accumulator (R120). -/
  | lda (o : Operand)
  /-- LDX, load index X (R121). -/
  | ldx (o : Operand)
  /-- LDY, load index Y (R122). -/
  | ldy (o : Operand)
  /-- STA, store accumulator (R123). -/
  | sta (o : Operand)
  /-- STX, store index X (R124). -/
  | stx (o : Operand)
  /-- STY, store index Y (R125). -/
  | sty (o : Operand)
  /-- TAX, transfer `A` to `X` (R130). -/
  | tax
  /-- TAY, transfer `A` to `Y` (R131). -/
  | tay
  /-- TXA, transfer `X` to `A` (R132). -/
  | txa
  /-- TYA, transfer `Y` to `A` (R133). -/
  | tya
  /-- TSX, transfer `SP` to `X` (R134). -/
  | tsx
  /-- TXS, transfer `X` to `SP` (R135). -/
  | txs
  /-- PHA, push `A` (R136). -/
  | pha
  /-- PHP, push the status byte (R137). -/
  | php
  /-- PLA, pull `A` (R138). -/
  | pla
  /-- PLP, pull the status byte (R139). -/
  | plp
  /-- AND, bitwise and with `A` (R145). -/
  | and (o : Operand)
  /-- ORA, bitwise inclusive or with `A` (R146). -/
  | ora (o : Operand)
  /-- EOR, bitwise exclusive or with `A` (R147). -/
  | eor (o : Operand)
  /-- BIT, bit test (R148). -/
  | bit (o : Operand)
  /-- ASL, shift left one bit (R153). -/
  | asl (o : Operand)
  /-- LSR, shift right one bit (R154). -/
  | lsr (o : Operand)
  /-- ROL, rotate left through carry (R155). -/
  | rol (o : Operand)
  /-- ROR, rotate right through carry (R156). -/
  | ror (o : Operand)
  /-- ADC, add memory and carry to `A` (R160). -/
  | adc (o : Operand)
  /-- SBC, subtract memory and borrow from `A` (R161). -/
  | sbc (o : Operand)
  /-- CMP, compare `A` with memory (R162). -/
  | cmp (o : Operand)
  /-- CPX, compare `X` with memory (R165). -/
  | cpx (o : Operand)
  /-- CPY, compare `Y` with memory (R166). -/
  | cpy (o : Operand)
  /-- INC, increment memory (R170). -/
  | inc (o : Operand)
  /-- DEC, decrement memory (R171). -/
  | dec (o : Operand)
  /-- INX, increment `X` (R172). -/
  | inx
  /-- INY, increment `Y` (R173). -/
  | iny
  /-- DEX, decrement `X` (R174). -/
  | dex
  /-- DEY, decrement `Y` (R175). -/
  | dey
  /-- JMP, jump (R180). -/
  | jmp (o : Operand)
  /-- JSR, jump to subroutine (R181). -/
  | jsr (target : Addr)
  /-- RTS, return from subroutine (R182). -/
  | rts
  /-- BCC, branch if carry clear (R184). -/
  | bcc (offset : Byte)
  /-- BCS, branch if carry set (R185). -/
  | bcs (offset : Byte)
  /-- BEQ, branch if zero set (R186). -/
  | beq (offset : Byte)
  /-- BNE, branch if zero clear (R187). -/
  | bne (offset : Byte)
  /-- BMI, branch if negative set (R188). -/
  | bmi (offset : Byte)
  /-- BPL, branch if negative clear (R189). -/
  | bpl (offset : Byte)
  /-- BVC, branch if overflow clear (R190). -/
  | bvc (offset : Byte)
  /-- BVS, branch if overflow set (R191). -/
  | bvs (offset : Byte)
  /-- CLC, clear carry (R200). -/
  | clc
  /-- CLD, clear decimal (R201). -/
  | cld
  /-- CLI, clear interrupt-disable (R202). -/
  | cli
  /-- CLV, clear overflow (R203). -/
  | clv
  /-- SEC, set carry (R204). -/
  | sec
  /-- SED, set decimal (R205). -/
  | sed
  /-- SEI, set interrupt-disable (R206). -/
  | sei
  /-- NOP, no operation (R207). -/
  | nop
  /-- BRK, software interrupt (R208). -/
  | brk
  /-- RTI, return from interrupt (R209). -/
  | rti
  /-- UNDEF, one of the 105 undefined opcode bytes (R211). -/
  | undef (opcode : Byte)
  deriving DecidableEq, Repr

/-- The mnemonic of an instruction. -/
def Instr.mnemonic : Instr → Mnemonic
  | .lda _ => .lda
  | .ldx _ => .ldx
  | .ldy _ => .ldy
  | .sta _ => .sta
  | .stx _ => .stx
  | .sty _ => .sty
  | .tax => .tax
  | .tay => .tay
  | .txa => .txa
  | .tya => .tya
  | .tsx => .tsx
  | .txs => .txs
  | .pha => .pha
  | .php => .php
  | .pla => .pla
  | .plp => .plp
  | .and _ => .and
  | .ora _ => .ora
  | .eor _ => .eor
  | .bit _ => .bit
  | .asl _ => .asl
  | .lsr _ => .lsr
  | .rol _ => .rol
  | .ror _ => .ror
  | .adc _ => .adc
  | .sbc _ => .sbc
  | .cmp _ => .cmp
  | .cpx _ => .cpx
  | .cpy _ => .cpy
  | .inc _ => .inc
  | .dec _ => .dec
  | .inx => .inx
  | .iny => .iny
  | .dex => .dex
  | .dey => .dey
  | .jmp _ => .jmp
  | .jsr _ => .jsr
  | .rts => .rts
  | .bcc _ => .bcc
  | .bcs _ => .bcs
  | .beq _ => .beq
  | .bne _ => .bne
  | .bmi _ => .bmi
  | .bpl _ => .bpl
  | .bvc _ => .bvc
  | .bvs _ => .bvs
  | .clc => .clc
  | .cld => .cld
  | .cli => .cli
  | .clv => .clv
  | .sec => .sec
  | .sed => .sed
  | .sei => .sei
  | .nop => .nop
  | .brk => .brk
  | .rti => .rti
  | .undef _ => .undef

/-- The operand of an instruction, in the form its mode gives it (`imp` when it has none). -/
def Instr.operand : Instr → Operand
  | .lda o => o
  | .ldx o => o
  | .ldy o => o
  | .sta o => o
  | .stx o => o
  | .sty o => o
  | .tax => .imp
  | .tay => .imp
  | .txa => .imp
  | .tya => .imp
  | .tsx => .imp
  | .txs => .imp
  | .pha => .imp
  | .php => .imp
  | .pla => .imp
  | .plp => .imp
  | .and o => o
  | .ora o => o
  | .eor o => o
  | .bit o => o
  | .asl o => o
  | .lsr o => o
  | .rol o => o
  | .ror o => o
  | .adc o => o
  | .sbc o => o
  | .cmp o => o
  | .cpx o => o
  | .cpy o => o
  | .inc o => o
  | .dec o => o
  | .inx => .imp
  | .iny => .imp
  | .dex => .imp
  | .dey => .imp
  | .jmp o => o
  | .jsr target => .abs target
  | .rts => .imp
  | .bcc offset => .rel offset
  | .bcs offset => .rel offset
  | .beq offset => .rel offset
  | .bne offset => .rel offset
  | .bmi offset => .rel offset
  | .bpl offset => .rel offset
  | .bvc offset => .rel offset
  | .bvs offset => .rel offset
  | .clc => .imp
  | .cld => .imp
  | .cli => .imp
  | .clv => .imp
  | .sec => .imp
  | .sed => .imp
  | .sei => .imp
  | .nop => .imp
  | .brk => .imp
  | .rti => .imp
  | .undef _ => .imp

/-- The mode of an instruction. -/
def Instr.mode (i : Instr) : Mode := i.operand.mode

end Sys2Proof
end

