-- ==== Sys2Proof/WellFormed.lean ====
section
/-! DEFINITION. Well-formedness of an instruction: its operand form is one the opcode map gives its mnemonic
(30_encoding.md R85), and an undefined opcode's byte is one of the 105 the map leaves unassigned (R87). This is about the
instruction set at the default of `DISPATCH`; a machine with another table does not consult it
(`Sys2Proof/Machine/Parametric.lean`). -/

namespace Sys2Proof

/-- The modes the opcode map gives a mnemonic: the non-empty cells of its row (30_encoding.md R85). -/
def Mnemonic.modes : Mnemonic → List Mode
  | .lda => [.imm, .zp, .zpx, .abs, .absx, .absy, .indx, .indy]
  | .ldx => [.imm, .zp, .zpy, .abs, .absy]
  | .ldy => [.imm, .zp, .zpx, .abs, .absx]
  | .sta => [.zp, .zpx, .abs, .absx, .absy, .indx, .indy]
  | .stx => [.zp, .zpy, .abs]
  | .sty => [.zp, .zpx, .abs]
  | .tax => [.imp]
  | .tay => [.imp]
  | .txa => [.imp]
  | .tya => [.imp]
  | .tsx => [.imp]
  | .txs => [.imp]
  | .pha => [.imp]
  | .php => [.imp]
  | .pla => [.imp]
  | .plp => [.imp]
  | .and => [.imm, .zp, .zpx, .abs, .absx, .absy, .indx, .indy]
  | .ora => [.imm, .zp, .zpx, .abs, .absx, .absy, .indx, .indy]
  | .eor => [.imm, .zp, .zpx, .abs, .absx, .absy, .indx, .indy]
  | .bit => [.zp, .abs]
  | .asl => [.acc, .zp, .zpx, .abs, .absx]
  | .lsr => [.acc, .zp, .zpx, .abs, .absx]
  | .rol => [.acc, .zp, .zpx, .abs, .absx]
  | .ror => [.acc, .zp, .zpx, .abs, .absx]
  | .adc => [.imm, .zp, .zpx, .abs, .absx, .absy, .indx, .indy]
  | .sbc => [.imm, .zp, .zpx, .abs, .absx, .absy, .indx, .indy]
  | .cmp => [.imm, .zp, .zpx, .abs, .absx, .absy, .indx, .indy]
  | .cpx => [.imm, .zp, .abs]
  | .cpy => [.imm, .zp, .abs]
  | .inc => [.zp, .zpx, .abs, .absx]
  | .dec => [.zp, .zpx, .abs, .absx]
  | .inx => [.imp]
  | .iny => [.imp]
  | .dex => [.imp]
  | .dey => [.imp]
  | .jmp => [.abs, .ind]
  | .jsr => [.abs]
  | .rts => [.imp]
  | .bcc => [.rel]
  | .bcs => [.rel]
  | .beq => [.rel]
  | .bne => [.rel]
  | .bmi => [.rel]
  | .bpl => [.rel]
  | .bvc => [.rel]
  | .bvs => [.rel]
  | .clc => [.imp]
  | .cld => [.imp]
  | .cli => [.imp]
  | .clv => [.imp]
  | .sec => [.imp]
  | .sed => [.imp]
  | .sei => [.imp]
  | .nop => [.imp]
  | .brk => [.imp]
  | .rti => [.imp]
  | .undef => [.imp]

/-- The 105 undefined opcode bytes (30_encoding.md R87), one piece a high nibble. -/
def undefinedOpcodes : List Byte :=
  [0x02, 0x03, 0x04, 0x07, 0x0B, 0x0C, 0x0F] ++
  [0x12, 0x13, 0x14, 0x17, 0x1A, 0x1B, 0x1C, 0x1F] ++
  [0x22, 0x23, 0x27, 0x2B, 0x2F] ++
  [0x32, 0x33, 0x34, 0x37, 0x3A, 0x3B, 0x3C, 0x3F] ++
  [0x42, 0x43, 0x44, 0x47, 0x4B, 0x4F] ++
  [0x52, 0x53, 0x54, 0x57, 0x5A, 0x5B, 0x5C, 0x5F] ++
  [0x62, 0x63, 0x64, 0x67, 0x6B, 0x6F] ++
  [0x72, 0x73, 0x74, 0x77, 0x7A, 0x7B, 0x7C, 0x7F] ++
  [0x80, 0x82, 0x83, 0x87, 0x89, 0x8B, 0x8F] ++
  [0x92, 0x93, 0x97, 0x9B, 0x9C, 0x9E, 0x9F] ++
  [0xA3, 0xA7, 0xAB, 0xAF] ++
  [0xB2, 0xB3, 0xB7, 0xBB, 0xBF] ++
  [0xC2, 0xC3, 0xC7, 0xCB, 0xCF] ++
  [0xD2, 0xD3, 0xD4, 0xD7, 0xDA, 0xDB, 0xDC, 0xDF] ++
  [0xE2, 0xE3, 0xE7, 0xEB, 0xEF] ++
  [0xF2, 0xF3, 0xF4, 0xF7, 0xFA, 0xFB, 0xFC, 0xFF]

/-- The byte carried by an undefined opcode is unassigned; every other instruction passes. -/
def Instr.undefByteOk : Instr → Bool
  | .undef opcode => undefinedOpcodes.contains opcode
  | _ => true

/-- An instruction of the hardware: its mode is one its mnemonic has, and an undefined opcode's byte is unassigned. -/
def Instr.wf (i : Instr) : Bool :=
  i.mnemonic.modes.contains i.mode && i.undefByteOk

end Sys2Proof
end

