-- ==== Sys2Proof/Decode.lean ====
section
/-! DEFINITION. Encoding (30_encoding.md): byte order of a 16-bit value, the dispatch table, the parameters of the model
(00_scope.md R7) with the decoder they give on any bytes, that decoder at the default parameters, and after it the encoder,
the row an instruction is encoded by and the host's entry `decodeTableWord`. -/

namespace Sys2Proof

/-! ## Byte order (20_memory.md R56, 30_encoding.md R84) -/

/-- `(hi << 8) | lo`. -/
def word16 (hi lo : Byte) : Addr := hi ++ lo

/-- The low byte of an address. -/
def loByte (a : Addr) : Byte := a.extractLsb' 0 8

/-- The high byte of an address: its page. -/
def hiByte (a : Addr) : Byte := a.extractLsb' 8 8

/-! ## The dispatch table (30_encoding.md R85, R92) -/

/-- A dispatch entry with the opcode byte that selects it: "(instruction semantics, addressing mode, base cycle count,
page-cross-sensitivity flag)" (30_encoding.md R92). -/
structure DispatchRow where
  opcode : Byte
  mnemonic : Mnemonic
  mode : Mode
  baseCycles : Nat
  pageCrossExtra : Bool
  deriving DecidableEq, Repr

/-- The rows of 41_load_store.md R120 to R125. -/
def loadStoreRows : List DispatchRow :=
  [⟨0xA9, .lda, .imm, 2, false⟩, ⟨0xA5, .lda, .zp, 3, false⟩, ⟨0xB5, .lda, .zpx, 4, false⟩, ⟨0xAD, .lda, .abs, 4, false⟩,
    ⟨0xBD, .lda, .absx, 4, true⟩, ⟨0xB9, .lda, .absy, 4, true⟩, ⟨0xA1, .lda, .indx, 6, false⟩, ⟨0xB1, .lda, .indy, 5, true⟩] ++
  [⟨0xA2, .ldx, .imm, 2, false⟩, ⟨0xA6, .ldx, .zp, 3, false⟩, ⟨0xB6, .ldx, .zpy, 4, false⟩, ⟨0xAE, .ldx, .abs, 4, false⟩,
    ⟨0xBE, .ldx, .absy, 4, true⟩] ++
  [⟨0xA0, .ldy, .imm, 2, false⟩, ⟨0xA4, .ldy, .zp, 3, false⟩, ⟨0xB4, .ldy, .zpx, 4, false⟩, ⟨0xAC, .ldy, .abs, 4, false⟩,
    ⟨0xBC, .ldy, .absx, 4, true⟩] ++
  [⟨0x85, .sta, .zp, 3, false⟩, ⟨0x95, .sta, .zpx, 4, false⟩, ⟨0x8D, .sta, .abs, 4, false⟩, ⟨0x9D, .sta, .absx, 5, false⟩,
    ⟨0x99, .sta, .absy, 5, false⟩, ⟨0x81, .sta, .indx, 6, false⟩, ⟨0x91, .sta, .indy, 6, false⟩] ++
  [⟨0x86, .stx, .zp, 3, false⟩, ⟨0x96, .stx, .zpy, 4, false⟩, ⟨0x8E, .stx, .abs, 4, false⟩] ++
  [⟨0x84, .sty, .zp, 3, false⟩, ⟨0x94, .sty, .zpx, 4, false⟩, ⟨0x8C, .sty, .abs, 4, false⟩]

/-- The rows of 42_transfer_stack.md R130 to R139. -/
def transferStackRows : List DispatchRow :=
  [⟨0xAA, .tax, .imp, 2, false⟩, ⟨0xA8, .tay, .imp, 2, false⟩, ⟨0x8A, .txa, .imp, 2, false⟩, ⟨0x98, .tya, .imp, 2, false⟩,
    ⟨0xBA, .tsx, .imp, 2, false⟩, ⟨0x9A, .txs, .imp, 2, false⟩, ⟨0x48, .pha, .imp, 3, false⟩, ⟨0x08, .php, .imp, 3, false⟩,
    ⟨0x68, .pla, .imp, 4, false⟩, ⟨0x28, .plp, .imp, 4, false⟩]

/-- The rows of 43_logical_bit.md R145 to R148. -/
def logicalRows : List DispatchRow :=
  [⟨0x29, .and, .imm, 2, false⟩, ⟨0x25, .and, .zp, 3, false⟩, ⟨0x35, .and, .zpx, 4, false⟩, ⟨0x2D, .and, .abs, 4, false⟩,
    ⟨0x3D, .and, .absx, 4, true⟩, ⟨0x39, .and, .absy, 4, true⟩, ⟨0x21, .and, .indx, 6, false⟩, ⟨0x31, .and, .indy, 5, true⟩] ++
  [⟨0x09, .ora, .imm, 2, false⟩, ⟨0x05, .ora, .zp, 3, false⟩, ⟨0x15, .ora, .zpx, 4, false⟩, ⟨0x0D, .ora, .abs, 4, false⟩,
    ⟨0x1D, .ora, .absx, 4, true⟩, ⟨0x19, .ora, .absy, 4, true⟩, ⟨0x01, .ora, .indx, 6, false⟩, ⟨0x11, .ora, .indy, 5, true⟩] ++
  [⟨0x49, .eor, .imm, 2, false⟩, ⟨0x45, .eor, .zp, 3, false⟩, ⟨0x55, .eor, .zpx, 4, false⟩, ⟨0x4D, .eor, .abs, 4, false⟩,
    ⟨0x5D, .eor, .absx, 4, true⟩, ⟨0x59, .eor, .absy, 4, true⟩, ⟨0x41, .eor, .indx, 6, false⟩, ⟨0x51, .eor, .indy, 5, true⟩] ++
  [⟨0x24, .bit, .zp, 3, false⟩, ⟨0x2C, .bit, .abs, 4, false⟩]

/-- The rows of 44_shift_rotate.md R153 to R156. -/
def shiftRows : List DispatchRow :=
  [⟨0x0A, .asl, .acc, 2, false⟩, ⟨0x06, .asl, .zp, 5, false⟩, ⟨0x16, .asl, .zpx, 6, false⟩, ⟨0x0E, .asl, .abs, 6, false⟩,
    ⟨0x1E, .asl, .absx, 7, false⟩] ++
  [⟨0x4A, .lsr, .acc, 2, false⟩, ⟨0x46, .lsr, .zp, 5, false⟩, ⟨0x56, .lsr, .zpx, 6, false⟩, ⟨0x4E, .lsr, .abs, 6, false⟩,
    ⟨0x5E, .lsr, .absx, 7, false⟩] ++
  [⟨0x2A, .rol, .acc, 2, false⟩, ⟨0x26, .rol, .zp, 5, false⟩, ⟨0x36, .rol, .zpx, 6, false⟩, ⟨0x2E, .rol, .abs, 6, false⟩,
    ⟨0x3E, .rol, .absx, 7, false⟩] ++
  [⟨0x6A, .ror, .acc, 2, false⟩, ⟨0x66, .ror, .zp, 5, false⟩, ⟨0x76, .ror, .zpx, 6, false⟩, ⟨0x6E, .ror, .abs, 6, false⟩,
    ⟨0x7E, .ror, .absx, 7, false⟩]

/-- The rows of 45_arithmetic_compare.md R160 to R166. -/
def arithmeticRows : List DispatchRow :=
  [⟨0x69, .adc, .imm, 2, false⟩, ⟨0x65, .adc, .zp, 3, false⟩, ⟨0x75, .adc, .zpx, 4, false⟩, ⟨0x6D, .adc, .abs, 4, false⟩,
    ⟨0x7D, .adc, .absx, 4, true⟩, ⟨0x79, .adc, .absy, 4, true⟩, ⟨0x61, .adc, .indx, 6, false⟩, ⟨0x71, .adc, .indy, 5, true⟩] ++
  [⟨0xE9, .sbc, .imm, 2, false⟩, ⟨0xE5, .sbc, .zp, 3, false⟩, ⟨0xF5, .sbc, .zpx, 4, false⟩, ⟨0xED, .sbc, .abs, 4, false⟩,
    ⟨0xFD, .sbc, .absx, 4, true⟩, ⟨0xF9, .sbc, .absy, 4, true⟩, ⟨0xE1, .sbc, .indx, 6, false⟩, ⟨0xF1, .sbc, .indy, 5, true⟩] ++
  [⟨0xC9, .cmp, .imm, 2, false⟩, ⟨0xC5, .cmp, .zp, 3, false⟩, ⟨0xD5, .cmp, .zpx, 4, false⟩, ⟨0xCD, .cmp, .abs, 4, false⟩,
    ⟨0xDD, .cmp, .absx, 4, true⟩, ⟨0xD9, .cmp, .absy, 4, true⟩, ⟨0xC1, .cmp, .indx, 6, false⟩, ⟨0xD1, .cmp, .indy, 5, true⟩] ++
  [⟨0xE0, .cpx, .imm, 2, false⟩, ⟨0xE4, .cpx, .zp, 3, false⟩, ⟨0xEC, .cpx, .abs, 4, false⟩] ++
  [⟨0xC0, .cpy, .imm, 2, false⟩, ⟨0xC4, .cpy, .zp, 3, false⟩, ⟨0xCC, .cpy, .abs, 4, false⟩]

/-- The rows of 46_incdec.md R170 to R175. -/
def incDecRows : List DispatchRow :=
  [⟨0xE6, .inc, .zp, 5, false⟩, ⟨0xF6, .inc, .zpx, 6, false⟩, ⟨0xEE, .inc, .abs, 6, false⟩, ⟨0xFE, .inc, .absx, 7, false⟩] ++
  [⟨0xC6, .dec, .zp, 5, false⟩, ⟨0xD6, .dec, .zpx, 6, false⟩, ⟨0xCE, .dec, .abs, 6, false⟩, ⟨0xDE, .dec, .absx, 7, false⟩] ++
  [⟨0xE8, .inx, .imp, 2, false⟩, ⟨0xC8, .iny, .imp, 2, false⟩, ⟨0xCA, .dex, .imp, 2, false⟩, ⟨0x88, .dey, .imp, 2, false⟩]

/-- The rows of 47_jump_branch.md R180 to R191. -/
def jumpBranchRows : List DispatchRow :=
  [⟨0x4C, .jmp, .abs, 3, false⟩, ⟨0x6C, .jmp, .ind, 5, false⟩] ++
  [⟨0x20, .jsr, .abs, 6, false⟩, ⟨0x60, .rts, .imp, 6, false⟩, ⟨0x90, .bcc, .rel, 2, false⟩, ⟨0xB0, .bcs, .rel, 2, false⟩,
    ⟨0xF0, .beq, .rel, 2, false⟩, ⟨0xD0, .bne, .rel, 2, false⟩, ⟨0x30, .bmi, .rel, 2, false⟩, ⟨0x10, .bpl, .rel, 2, false⟩,
    ⟨0x50, .bvc, .rel, 2, false⟩, ⟨0x70, .bvs, .rel, 2, false⟩]

/-- The rows of 48_flags_nop_system.md R200 to R209. -/
def flagSystemRows : List DispatchRow :=
  [⟨0x18, .clc, .imp, 2, false⟩, ⟨0xD8, .cld, .imp, 2, false⟩, ⟨0x58, .cli, .imp, 2, false⟩, ⟨0xB8, .clv, .imp, 2, false⟩,
    ⟨0x38, .sec, .imp, 2, false⟩, ⟨0xF8, .sed, .imp, 2, false⟩, ⟨0x78, .sei, .imp, 2, false⟩, ⟨0xEA, .nop, .imp, 2, false⟩,
    ⟨0x00, .brk, .imp, 7, false⟩, ⟨0x40, .rti, .imp, 6, false⟩]

/-- The parameter `DISPATCH` at its default: the 151 assigned opcodes (30_encoding.md R85, R86). The source confirms
`A9`, `85`, `A5` and `69`; the other bytes and counts are the spec's (decisions D4 and D6, assumption logs 3 and 4). -/
def dispatchTable : List DispatchRow :=
  loadStoreRows ++ transferStackRows ++ logicalRows ++ shiftRows ++ arithmeticRows ++ incDecRows ++
    jumpBranchRows ++ flagSystemRows

/-! ## The parameters (00_scope.md R7, 10_state.md R36) -/

/-- The parameters that are constant over a run. The fourth parameter of R7, `MEM0`, is the argument of
`Sys2Proof.Machine.State.powerOn`. -/
structure Params where
  /-- `DISPATCH`: the assigned opcode bytes, each with its entry. Of two rows for one byte the first counts, so that any list
  is a table on the 256 bytes. -/
  table : List DispatchRow
  /-- `UNDEF_LEN`. -/
  undefLen : Nat
  /-- `UNDEF_CYCLES`. -/
  undefCycles : Nat
  deriving DecidableEq, Repr

/-- The parameters at the defaults the spec gives them (00_scope.md R7; the spec's decisions D4, D5, D6, assumption logs
3, 4, 5). Every definition that names no `Params` is at these. -/
def Params.default : Params :=
  { table := dispatchTable, undefLen := Config.undefLen, undefCycles := Config.undefCycles }

/-- The entry of an opcode byte the table does not assign (30_encoding.md R87, 48_flags_nop_system.md R211). -/
def Params.undefRow (p : Params) (opcode : Byte) : DispatchRow := ⟨opcode, .undef, .imp, p.undefCycles, false⟩

/-- `DISPATCH[opcode]`: total on the 256 opcode bytes (30_encoding.md R80, R91). -/
def Params.row (p : Params) (opcode : Byte) : DispatchRow :=
  (p.table.find? fun r => r.opcode == opcode).getD (p.undefRow opcode)

/-- The undefined entry at the default parameters. -/
def undefRow (opcode : Byte) : DispatchRow := Params.default.undefRow opcode

/-- `DISPATCH[opcode]` at the default parameters. -/
def dispatch (opcode : Byte) : DispatchRow := Params.default.row opcode

/-- The modes that give an operand in place: a location of memory, the immediate byte at its own address, or `A`
(40_addressing_modes.md R101 to R109, R111, R114). -/
def Mode.hasOperand (mode : Mode) : Bool := mode != .imp && mode != .rel

/-- The modes that give an effective address (40_addressing_modes.md R101 to R109, R114). -/
def Mode.hasAddress (mode : Mode) : Bool := mode.hasOperand && mode != .acc

/-- The operand forms in which a mnemonic's rule has what its pseudocode names, whatever the table: an operand to read or
write, an effective address to go to, a branch target, or nothing at all, where any form will do (41_load_store.md to
48_flags_nop_system.md). A table may give a mnemonic any of these (assumption log 32). -/
def Mnemonic.admits (m : Mnemonic) (mode : Mode) : Bool :=
  match m with
  | .lda | .ldx | .ldy | .and | .ora | .eor | .bit | .adc | .sbc | .cmp | .cpx | .cpy => mode.hasOperand
  | .sta | .stx | .sty | .inc | .dec | .asl | .lsr | .rol | .ror => mode.hasOperand
  | .jmp | .jsr => mode.hasAddress
  | .bcc | .bcs | .beq | .bne | .bmi | .bpl | .bvc | .bvs => mode == .rel
  | .tax | .tay | .txa | .tya | .tsx | .txs | .pha | .php | .pla | .plp | .inx | .iny | .dex | .dey | .rts | .clc | .cld | .cli
  | .clv | .sec | .sed | .sei | .nop | .brk | .rti | .undef => true

/-- Parameters a machine can be built with: in every row the form gives the mnemonic's rule what it names, and an undefined
opcode has at least its opcode byte. -/
def Params.wf (p : Params) : Bool :=
  (p.table.all fun r => r.mnemonic.admits r.mode) && decide (1 ≤ p.undefLen)

/-! ## Decoding (30_encoding.md R80 to R84) -/

/-- The number of operand bytes of a mode (40_addressing_modes.md R100). -/
def Mode.operandBytes : Mode → Nat
  | .imp => 0
  | .acc => 0
  | .imm => 1
  | .zp => 1
  | .zpx => 1
  | .zpy => 1
  | .abs => 2
  | .absx => 2
  | .absy => 2
  | .ind => 2
  | .indx => 1
  | .indy => 1
  | .rel => 1

/-- The length of a mnemonic in a mode: `1 + operand_bytes(mode)`, or `UNDEF_LEN` (30_encoding.md R83). -/
def Params.lengthOf (p : Params) (m : Mnemonic) (mode : Mode) : Nat :=
  if m = .undef then p.undefLen else 1 + mode.operandBytes

/-- The length in bytes of the instruction an opcode byte begins, told from that byte alone (30_encoding.md R83). -/
def Params.opcodeLength (p : Params) (opcode : Byte) : Nat := p.lengthOf (p.row opcode).mnemonic (p.row opcode).mode

/-- `Params.lengthOf` at the default parameters. -/
def lengthOf (m : Mnemonic) (mode : Mode) : Nat := Params.default.lengthOf m mode

/-- `Params.opcodeLength` at the default parameters. -/
def opcodeLength (opcode : Byte) : Nat := Params.default.opcodeLength opcode

/-- The length in bytes of an instruction (30_encoding.md R81). -/
def Instr.length (i : Instr) : Nat := lengthOf i.mnemonic i.mode

/-- The operand of a mode from the operand bytes `byte1` and `byte2` (30_encoding.md R84). -/
def operandOf (mode : Mode) (byte1 byte2 : Byte) : Operand :=
  match mode with
  | .imp => .imp
  | .acc => .acc
  | .imm => .imm byte1
  | .zp => .zp byte1
  | .zpx => .zpx byte1
  | .zpy => .zpy byte1
  | .abs => .abs (word16 byte2 byte1)
  | .absx => .absx (word16 byte2 byte1)
  | .absy => .absy (word16 byte2 byte1)
  | .ind => .ind (word16 byte2 byte1)
  | .indx => .indx byte1
  | .indy => .indy byte1
  | .rel => .rel byte1

/-- The instruction of a mnemonic in a mode over the bytes `opcode`, `byte1`, `byte2` (30_encoding.md R80). -/
def assemble (m : Mnemonic) (mode : Mode) (opcode byte1 byte2 : Byte) : Instr :=
  match m with
  | .lda => .lda (operandOf mode byte1 byte2)
  | .ldx => .ldx (operandOf mode byte1 byte2)
  | .ldy => .ldy (operandOf mode byte1 byte2)
  | .sta => .sta (operandOf mode byte1 byte2)
  | .stx => .stx (operandOf mode byte1 byte2)
  | .sty => .sty (operandOf mode byte1 byte2)
  | .tax => .tax
  | .tay => .tay
  | .txa => .txa
  | .tya => .tya
  | .tsx => .tsx
  | .txs => .txs
  | .pha => .pha
  | .php => .php
  | .pla => .pla
  | .plp => .plp
  | .and => .and (operandOf mode byte1 byte2)
  | .ora => .ora (operandOf mode byte1 byte2)
  | .eor => .eor (operandOf mode byte1 byte2)
  | .bit => .bit (operandOf mode byte1 byte2)
  | .asl => .asl (operandOf mode byte1 byte2)
  | .lsr => .lsr (operandOf mode byte1 byte2)
  | .rol => .rol (operandOf mode byte1 byte2)
  | .ror => .ror (operandOf mode byte1 byte2)
  | .adc => .adc (operandOf mode byte1 byte2)
  | .sbc => .sbc (operandOf mode byte1 byte2)
  | .cmp => .cmp (operandOf mode byte1 byte2)
  | .cpx => .cpx (operandOf mode byte1 byte2)
  | .cpy => .cpy (operandOf mode byte1 byte2)
  | .inc => .inc (operandOf mode byte1 byte2)
  | .dec => .dec (operandOf mode byte1 byte2)
  | .inx => .inx
  | .iny => .iny
  | .dex => .dex
  | .dey => .dey
  | .jmp => .jmp (operandOf mode byte1 byte2)
  | .jsr => .jsr (word16 byte2 byte1)
  | .rts => .rts
  | .bcc => .bcc byte1
  | .bcs => .bcs byte1
  | .beq => .beq byte1
  | .bne => .bne byte1
  | .bmi => .bmi byte1
  | .bpl => .bpl byte1
  | .bvc => .bvc byte1
  | .bvs => .bvs byte1
  | .clc => .clc
  | .cld => .cld
  | .cli => .cli
  | .clv => .clv
  | .sec => .sec
  | .sed => .sed
  | .sei => .sei
  | .nop => .nop
  | .brk => .brk
  | .rti => .rti
  | .undef => .undef opcode

/-- The instruction three bytes in a row begin at the default parameters. Total: an unassigned byte is an undefined opcode
(30_encoding.md R87). A byte past the instruction's length takes no part. -/
def instrOfBytes (opcode byte1 byte2 : Byte) : Instr :=
  assemble (dispatch opcode).mnemonic (dispatch opcode).mode opcode byte1 byte2

/-- What a decoder over any parameters reads: the entry of the opcode byte and the operand in the entry's mode. A mnemonic
may stand there in a mode that no term of `Instr` has. -/
structure Decoded where
  row : DispatchRow
  operand : Operand
  deriving DecidableEq, Repr

/-- What three bytes in a row begin at any parameters. An undefined opcode has no operand, whatever mode its row names: its
length is `UNDEF_LEN`. -/
def Params.decoded (p : Params) (opcode byte1 byte2 : Byte) : Decoded :=
  { row := p.row opcode
    operand := if (p.row opcode).mnemonic = .undef then .imp else operandOf (p.row opcode).mode byte1 byte2 }

/-- Why a list of bytes begins no instruction. No byte value is rejected (30_encoding.md R87): only too few bytes. -/
inductive DecodeError where
  /-- There is no opcode byte. -/
  | noOpcode
  /-- The list ends before the operand bytes of this opcode. -/
  | truncated (opcode : Byte)
  deriving DecidableEq, Repr

/-- The shape of a decoder: the length from the opcode byte, then the bytes of that length taken, an operand byte the length
does not reach read as 0. -/
def decodeBy {α : Type} (length : Byte → Nat) (build : Byte → Byte → Byte → α) : List Byte → Except DecodeError (α × List Byte)
  | [] => .error .noOpcode
  | opcode :: rest =>
    if rest.length < length opcode - 1 then .error (.truncated opcode)
    else .ok (build opcode (rest.getD 0 0) (rest.getD 1 0), rest.drop (length opcode - 1))

/-- The decoder at any parameters. -/
def Params.decode (p : Params) (bytes : List Byte) : Except DecodeError (Decoded × List Byte) :=
  decodeBy p.opcodeLength p.decoded bytes

/-- The instruction a list of bytes begins, and the bytes after it. -/
def decode (bytes : List Byte) : Except DecodeError (Instr × List Byte) := decodeBy opcodeLength instrOfBytes bytes

/-! ## Encoding -/

/-- The row of the default table for a mnemonic in a mode. -/
def rowFor (m : Mnemonic) (mode : Mode) : Option DispatchRow :=
  dispatchTable.find? fun r => r.mnemonic == m && r.mode == mode

/-- The opcode byte of an instruction, if the map gives it one. -/
def Instr.opcode? (i : Instr) : Option Byte :=
  match i with
  | .undef opcode => if undefinedOpcodes.contains opcode then some opcode else none
  | i => (rowFor i.mnemonic i.mode).map DispatchRow.opcode

/-- The operand bytes in ascending address order: the low byte of an address first (30_encoding.md R81, R84). -/
def Operand.bytes : Operand → List Byte
  | .imp => []
  | .acc => []
  | .imm value => [value]
  | .zp addr => [addr]
  | .zpx addr => [addr]
  | .zpy addr => [addr]
  | .abs addr => [loByte addr, hiByte addr]
  | .absx base => [loByte base, hiByte base]
  | .absy base => [loByte base, hiByte base]
  | .ind pointer => [loByte pointer, hiByte pointer]
  | .indx pointer => [pointer]
  | .indy pointer => [pointer]
  | .rel offset => [offset]

/-- The bytes of a well-formed instruction, opcode first; no byte for a term the map gives no opcode. -/
def encode (i : Instr) : List Byte :=
  match i.opcode? with
  | some opcode => opcode :: i.operand.bytes
  | none => []

/-! ## The host's entry -/

/-- The bytes of an instruction given as one number whose bit 0 is bit 0 of its first byte: the low `nbits` bits of `w`
as three bytes in memory order, every bit above them 0. -/
def tableWordBytes (nbits w : Nat) : List Byte :=
  let v := w % 2 ^ nbits
  [BitVec.ofNat 8 v, BitVec.ofNat 8 (v / 256), BitVec.ofNat 8 (v / 65536)]

/-- The instruction the decoder reads from the bytes of a table word. -/
def decodeTableWord (nbits w : Nat) : Option Instr :=
  match decode (tableWordBytes nbits w) with
  | .ok (i, _) => some i
  | .error _ => none

end Sys2Proof
end

