-- ==== Sys2Proof/Machine/Memory.lean ====
section
/-! DEFINITION. The 65536-byte memory behind the bus (20_memory.md R50): a list of (address, byte) pairs in one
canonical form, its read and write of one byte, the fixed addresses of the map (R59), and a byte loader. -/

namespace Sys2Proof.Machine

/-- Memory as plain data: the bytes that differ from what an unlisted address reads as, by rising address. -/
abbrev Memory := List Host.Cell

/-! ## The address map (20_memory.md R59, 10_state.md R22) -/

/-- The high byte of every stack address: the stack page is `0x0100` to `0x01FF`. -/
def stackPage : Byte := 0x01

/-- The value of `SP` after reset (70_reset_and_hazards.md R260). -/
def resetSp : Byte := 0xFD

/-- Address of the NMI vector's low byte; the high byte is at the next address. -/
def nmiVector : Addr := 0xFFFA

/-- Address of the reset vector's low byte. -/
def resetVector : Addr := 0xFFFC

/-- Address of the IRQ/BRK vector's low byte. -/
def irqVector : Addr := 0xFFFE

/-! ## One byte -/

/-- What the cells at a key read as. The search ends at the first cell past the key (assumption log 27). -/
def Memory.readKey : Memory → Nat → Byte
  | [], _ => Config.unlistedByte
  | (k, w) :: rest, a => if a < k then Config.unlistedByte else if a = k then w else Memory.readKey rest a

/-- `M[a]` (20_memory.md R52). -/
def Memory.read (m : Memory) (a : Addr) : Byte := Memory.readKey m a.toNat

/-- The list without its leading cells at or below a key. In canonical form a cell's tail has none. -/
def Memory.dropUpTo : Memory → Nat → Memory
  | [], _ => []
  | (k, w) :: rest, a => if k ≤ a then Memory.dropUpTo rest a else (k, w) :: rest

/-- A cell for byte `v` at key `a` in front of the cells above `a`; none when `v` is what an unlisted address reads as. -/
def Memory.cons (a : Nat) (v : Byte) (rest : Memory) : Memory :=
  if v = Config.unlistedByte then rest else (a, v) :: rest

/-- The memory with byte `v` at key `a`, in canonical form when the memory is. -/
def Memory.writeKey : Memory → Nat → Byte → Memory
  | [], a, v => Memory.cons a v []
  | (k, w) :: rest, a, v =>
    if a < k then Memory.cons a v ((k, w) :: rest)
    else if a = k then Memory.cons a v (Memory.dropUpTo rest a)
    else (k, w) :: Memory.writeKey rest a v

/-- `M[a] <- v`, every other location unchanged (20_memory.md R53). -/
def Memory.write (m : Memory) (a : Addr) (v : Byte) : Memory := Memory.writeKey m a.toNat v

/-- Whether the keys rise strictly from above `low`, lie in the address space, and name no byte an unlisted address
reads as. `low` is one more than the last key passed. -/
def Memory.wfFrom : Nat → Memory → Bool
  | _, [] => true
  | low, (k, w) :: rest => decide (low ≤ k) && decide (k < 65536) && (w != Config.unlistedByte) && Memory.wfFrom (k + 1) rest

/-- The canonical form: addresses strictly rising and below 65536, no cell equal to what an unlisted address reads as. -/
def Memory.wf (m : Memory) : Bool := Memory.wfFrom 0 m

/-- The bytes at consecutive addresses modulo 65536, the first at `a` (20_memory.md R68). DESIGN CHOICE: of the bytes a list of
more than 65536 gives one address, the last stays (assumption log 33). -/
def Memory.load (m : Memory) (a : Addr) : List Byte → Memory
  | [] => m
  | b :: rest => Memory.load (m.write a b) (a + 1) rest

end Sys2Proof.Machine
end

