-- ==== Sys2Proof/Machine/State.lean ====
section
/-! DEFINITION. The state of the machine as plain data (10_state.md), why a step can stop, power-on and reset. -/

namespace Sys2Proof.Machine

/-- The eight status flags, each one stored bit (10_state.md R25). -/
structure Flags where
  /-- Carry. -/
  c : Bool
  /-- Zero. -/
  z : Bool
  /-- Interrupt-disable. -/
  i : Bool
  /-- Decimal: stored, without effect on arithmetic (10_state.md R42). -/
  d : Bool
  /-- Break: stored, gates nothing (10_state.md R40). -/
  b : Bool
  /-- Unused: stored, read by nothing but the accessor (10_state.md R41). -/
  u : Bool
  /-- Overflow. -/
  v : Bool
  /-- Negative. -/
  n : Bool
  deriving DecidableEq, Repr

/-- The state of the core and the memory behind its bus (10_state.md, head and R35; 20_memory.md R50). -/
structure State where
  /-- Accumulator (10_state.md R20). -/
  a : Byte
  /-- Index register `X` (10_state.md R20). -/
  x : Byte
  /-- Index register `Y` (10_state.md R20). -/
  y : Byte
  /-- Stack pointer (10_state.md R22). -/
  sp : Byte
  /-- Program counter: the next opcode's address at an instruction boundary (10_state.md R23). -/
  pc : Addr
  /-- The eight status flags (10_state.md R25). -/
  flags : Flags
  /-- `cycle_count`, an unbounded natural number (10_state.md R32, 00_scope.md R6). -/
  cycleCount : Nat
  /-- `NMI_pending` (10_state.md R33). -/
  nmiPending : Bool
  /-- `IRQ_pending` (10_state.md R34). -/
  irqPending : Bool
  /-- The memory image (20_memory.md R50). -/
  mem : Memory
  deriving DecidableEq, Repr

/-- Why the machine faults: never. The hardware raises no synchronous exception and no access fails
(60_exceptions.md R220, R241; assumption log 30), so this type has no constructor. -/
inductive Fault
  deriving DecidableEq, Repr

/-- Why an instruction is refused. -/
inductive Refusal where
  /-- Raised by an arm of `exec` whose instruction has no meaning yet; no arm does. Safe. -/
  | notModelled (mnemonic : String)
  /-- Raised by `retire` (`Sys2Proof/Machine/Operands.lean`) for a term whose operand form the opcode map does not give its
  mnemonic, or an undefined opcode carrying an assigned byte: it is no instruction of the hardware, and no bytes decode
  to it. Raised by `executeEntry` (`Sys2Proof/Machine/Parametric.lean`) over other parameters, for a table row whose form
  does not give the mnemonic's rule what it names. Safe (assumption logs 21, 32). -/
  | noSuchForm
  deriving DecidableEq, Repr

/-- The flags after reset: all clear but `U` (10_state.md R38, 70_reset_and_hazards.md R260). -/
def resetFlags : Flags :=
  { c := false, z := false, i := false, d := false, b := false, u := true, v := false, n := false }

/-- Power-on over the memory image `MEM0` (70_reset_and_hazards.md R261): `cycle_count` 0 and both latches clear
(the spec's decision D8, assumption log 6), then the reset of R260. -/
def State.powerOn (mem0 : Memory) : State :=
  { a := 0, x := 0, y := 0, sp := resetSp
    pc := word16 (mem0.read (resetVector + 1)) (mem0.read resetVector)
    flags := resetFlags
    cycleCount := 0, nmiPending := false, irqPending := false
    mem := mem0 }

/-- The machine right after reset, over the memory with nothing listed (assumption logs 1 and 2). -/
def State.reset : State := State.powerOn []

end Sys2Proof.Machine
end

