-- ==== Sys2Proof/Machine/Flags.lean ====
section
/-! DEFINITION. Every flag computation the spec gives: packing and unpacking the status byte (10_state.md R30, R31),
`SetZN` (R29), the adder (45_arithmetic_compare.md R164), the compare, BIT, and the one-bit shifts
(44_shift_rotate.md). -/

namespace Sys2Proof.Machine

/-- The mask of a flag's bit when the flag is set (10_state.md R25). -/
def flagMask (f : Bool) (mask : Byte) : Byte := if f then mask else 0

/-- `Compose()`: the status byte, bit 5 always 1 whatever the stored `U` is (10_state.md R30). -/
def compose (f : Flags) : Byte :=
  flagMask f.c 0x01 ||| flagMask f.z 0x02 ||| flagMask f.i 0x04 ||| flagMask f.d 0x08 ||| flagMask f.b 0x10 ||| 0x20 |||
    flagMask f.v 0x40 ||| flagMask f.n 0x80

/-- `Apply(v)`: all eight flags from the bits of `v` (10_state.md R31). -/
def applyStatus (v : Byte) : Flags :=
  { c := v.getLsbD 0, z := v.getLsbD 1, i := v.getLsbD 2, d := v.getLsbD 3
    b := v.getLsbD 4, u := v.getLsbD 5, v := v.getLsbD 6, n := v.getLsbD 7 }

/-- `SetZN(v)`: `Z <- (v == 0); N <- v[7]` (10_state.md R29). -/
def setZN (v : Byte) (f : Flags) : Flags := { f with z := v == 0, n := v.getLsbD 7 }

/-- What the shared adder returns (45_arithmetic_compare.md R164). -/
structure AddResult where
  r : Byte
  cOut : Bool
  vOut : Bool
  deriving DecidableEq, Repr

/-- `AddCore(a, m, c)`: the sum as an integer, reduced; carry when it exceeds 255; overflow when the operands share a
sign the result does not (45_arithmetic_compare.md R164). `D` takes no part (10_state.md R42). -/
def addCore (a m : Byte) (c : Bool) : AddResult :=
  let sum := a.toNat + m.toNat + c.toNat
  let r := BitVec.ofNat 8 sum
  { r := r, cOut := decide (sum > 255), vOut := (a.getLsbD 7 == m.getLsbD 7) && (r.getLsbD 7 != a.getLsbD 7) }

/-- The flags after ADC or SBC: `C` and `V` from the adder, `Z` and `N` from its result (R160, R161). -/
def addFlags (res : AddResult) (f : Flags) : Flags := setZN res.r { f with c := res.cOut, v := res.vOut }

/-- The flags after a compare of `reg` with `m`: `C <- (reg >= m)` unsigned, `Z <- (reg == m)`, `N` from the difference
(45_arithmetic_compare.md R162, R165, R166). -/
def compareFlags (reg m : Byte) (f : Flags) : Flags :=
  { f with c := decide (m.toNat ≤ reg.toNat), z := reg == m, n := (reg - m).getLsbD 7 }

/-- The flags after BIT: `Z` from `A & m`, `N` and `V` from `m` (43_logical_bit.md R148). -/
def bitFlags (a m : Byte) (f : Flags) : Flags :=
  { f with z := (a &&& m) == 0, n := m.getLsbD 7, v := m.getLsbD 6 }

/-- A shifted byte and the bit shifted out (44_shift_rotate.md). -/
structure ShiftResult where
  r : Byte
  cOut : Bool
  deriving DecidableEq, Repr

/-- The flags after a shift or rotate: `C` the bit shifted out, `Z` and `N` from the result. -/
def shiftFlags (res : ShiftResult) (f : Flags) : Flags := setZN res.r { f with c := res.cOut }

/-- ASL: bit 0 becomes 0 (R153). -/
def shiftAsl (v : Byte) : ShiftResult := { r := v <<< 1, cOut := v.getLsbD 7 }

/-- LSR: bit 7 becomes 0 (R154). -/
def shiftLsr (v : Byte) : ShiftResult := { r := v >>> 1, cOut := v.getLsbD 0 }

/-- ROL: the previous carry goes into bit 0 (R155). -/
def shiftRol (v : Byte) (c : Bool) : ShiftResult :=
  { r := (v <<< 1) ||| flagMask c 0x01, cOut := v.getLsbD 7 }

/-- ROR: the previous carry goes into bit 7 (R156). -/
def shiftRor (v : Byte) (c : Bool) : ShiftResult :=
  { r := (v >>> 1) ||| flagMask c 0x80, cOut := v.getLsbD 0 }

end Sys2Proof.Machine
end

