-- ==== Sys2Proof/Machine/Ops.lean ====
section
/-! DEFINITION. The named operations over memory, registers and the stack (10_state.md R27, R28; 20_memory.md R52, R53,
R55), entering a trap and returning from one (60_exceptions.md R230, R231), and fetching an instruction's bytes
(30_encoding.md R80, R82). -/

namespace Sys2Proof.Machine

/-! ## The bus (20_memory.md R52, R53, R55) -/

/-- `MemRead(addr, 1)`. -/
def busRead (s : State) (a : Addr) : Byte := s.mem.read a

/-- `MemWrite(addr, 1, v)`. -/
def busWrite (a : Addr) (v : Byte) (s : State) : State := { s with mem := s.mem.write a v }

/-- `Read16(lo_addr, hi_addr)`: the two bytes at two addresses given separately, low byte first. -/
def read16 (s : State) (loAddr hiAddr : Addr) : Addr := word16 (busRead s hiAddr) (busRead s loAddr)

/-! ## Registers -/

/-- `A <- v; SetZN(A)`. -/
def loadA (v : Byte) (s : State) : State := { s with a := v, flags := setZN v s.flags }

/-- `X <- v; SetZN(X)`. -/
def loadX (v : Byte) (s : State) : State := { s with x := v, flags := setZN v s.flags }

/-- `Y <- v; SetZN(Y)`. -/
def loadY (v : Byte) (s : State) : State := { s with y := v, flags := setZN v s.flags }

/-- `SP <- v`. -/
def setSp (v : Byte) (s : State) : State := { s with sp := v }

/-- `PC <- target`. -/
def setPc (target : Addr) (s : State) : State := { s with pc := target }

/-- The flags `f`, everything else as before. -/
def setFlags (f : Flags) (s : State) : State := { s with flags := f }

/-- `cycle_count` grown by `cycles` (60_exceptions.md R241). -/
def addCycles (cycles : Nat) (s : State) : State := { s with cycleCount := s.cycleCount + cycles }

/-! ## The stack (10_state.md R22, R27, R28) -/

/-- The address `0x0100 + SP`. -/
def stackAddr (sp : Byte) : Addr := word16 stackPage sp

/-- `Push(v)`: `SP <- (SP - 1) mod 256; MemWrite(0x0100 + SP, 1, v)` (10_state.md R27). -/
def push (v : Byte) (s : State) : State := busWrite (stackAddr (s.sp - 1)) v (setSp (s.sp - 1) s)

/-- `Pull()`: the byte at `0x0100 + SP`, then `SP <- (SP + 1) mod 256` (10_state.md R28). -/
def pull (s : State) : Byte × State := (busRead s (stackAddr s.sp), setSp (s.sp + 1) s)

/-- Push a 16-bit value, high byte first (20_memory.md R56). -/
def pushWord (w : Addr) (s : State) : State := push (loByte w) (push (hiByte w) s)

/-- Pull a 16-bit value, low byte first (20_memory.md R56). -/
def pullWord (s : State) : Addr × State :=
  let lo := pull s
  let hi := pull lo.2
  (word16 hi.1 lo.1, hi.2)

/-! ## Traps (60_exceptions.md R230, R231) -/

/-- Entering a trap, the one operation BRK, the NMI service and the IRQ service share (60_exceptions.md R230): the return
address is pushed high byte first and then the status byte, `I <- 1`, and `PC` is loaded from the two bytes at `vector`. -/
def enterTrap (ret : Addr) (status : Byte) (vector : Addr) (s : State) : State :=
  let saved := push status (pushWord ret s)
  { saved with flags := { saved.flags with i := true }, pc := read16 saved vector (vector + 1) }

/-- Returning from a trap: the status byte is pulled into all eight flags, then `PC`, low byte first and with no
adjustment (48_flags_nop_system.md R209, 60_exceptions.md R231). -/
def returnFromTrap (s : State) : State :=
  let status := pull s
  let ret := pullWord (setFlags (applyStatus status.1) status.2)
  setPc ret.1 ret.2

/-! ## Fetching an instruction (30_encoding.md R80, R82, R83) -/

/-- `Fetch8()`: the byte at `PC`, then `PC <- (PC + 1) mod 65536` (30_encoding.md R82). -/
def fetch8 (s : State) : Byte × State := (busRead s s.pc, setPc (s.pc + 1) s)

/-- `n` bytes by `Fetch8()`, in ascending address order. -/
def fetchBytes : Nat → State → List Byte × State
  | 0, s => ([], s)
  | n + 1, s =>
    let b := fetch8 s
    let rest := fetchBytes n b.2
    (b.1 :: rest.1, rest.2)

/-- What the bytes at `PC` begin, and the state with `PC = PC_next` (30_encoding.md R80 steps 1 to 3): the length from the
opcode byte, then that many bytes in all. DESIGN CHOICE: the further bytes of an undefined opcode at an `UNDEF_LEN` above 1, which
no rule fetches or skips, are read with `Fetch8()` and used for nothing (assumption log 34). -/
def fetchBy {α : Type} (length : Byte → Nat) (build : Byte → Byte → Byte → α) (s : State) : α × State :=
  let op := fetch8 s
  let rest := fetchBytes (length op.1 - 1) op.2
  (build op.1 (rest.1.getD 0 0) (rest.1.getD 1 0), rest.2)

/-- The fetch at any parameters. -/
def fetchInstrWith (p : Params) (s : State) : Decoded × State := fetchBy p.opcodeLength p.decoded s

/-- The instruction at `PC`, and the state with `PC = PC_next`. -/
def fetchInstr (s : State) : Instr × State := fetchBy opcodeLength instrOfBytes s

end Sys2Proof.Machine
end

