-- ==== Sys2Proof/Machine/Operands.lean ====
section
/-! DEFINITION. The address-mode resolver (40_addressing_modes.md): what each of the thirteen operand forms resolves to,
page crossing, reading and writing the resolved operand, and the cycles of an instruction
(70_reset_and_hazards.md R270). Every function here is applied to the state whose `PC` is `PC_next`. -/

namespace Sys2Proof.Machine

/-- What the resolver returns (40_addressing_modes.md R100). -/
inductive Resolved where
  /-- Implied: nothing (R110). -/
  | nothing
  /-- Accumulator: the operand is `A` (R111). -/
  | accumulator
  /-- Immediate: the operand byte `value`, which stands at `ea` (R109). -/
  | immediate (ea : Addr) (value : Byte)
  /-- A location of memory, at the effective address (R101 to R108, R114). -/
  | memory (ea : Addr)
  /-- Relative: the branch target (R112). -/
  | target (addr : Addr)
  deriving DecidableEq, Repr

/-! ## Effective addresses -/

/-- A zero-page address indexed by `index`: the sum modulo 256 (R101, R102). -/
def zeroPageIndexed (b index : Byte) : Addr := word16 0 (b + index)

/-- A base address indexed by `index`: the sum modulo 65536 (R104, R105, R108). -/
def indexed (base : Addr) (index : Byte) : Addr := base + index.setWidth 16

/-- The address the high byte of an indirect pointer is read from: the next address inside the pointer's own page
(R106, the page-wrap erratum). -/
def indirectHighAddr (ptr : Addr) : Addr := (ptr &&& 0xFF00) ||| ((ptr + 1) &&& 0x00FF)

/-- The 16-bit value at a zero-page pointer: both bytes inside the zero page (R107, R108; assumption log 11). -/
def zeroPagePointer (s : State) (p : Byte) : Addr := read16 s (word16 0 p) (word16 0 (p + 1))

/-- `target = (PC_next + sext_8(offset)) mod 65536` (R112). -/
def branchTarget (pcNext : Addr) (offset : Byte) : Addr := pcNext + offset.signExtend 16

/-- The resolver (40_addressing_modes.md R100), on the state with `PC = PC_next`. -/
def resolve (o : Operand) (s : State) : Resolved :=
  match o with
  | .imp => .nothing
  | .acc => .accumulator
  | .imm value => .immediate (s.pc - 1) value
  | .zp addr => .memory (word16 0 addr)
  | .zpx addr => .memory (zeroPageIndexed addr s.x)
  | .zpy addr => .memory (zeroPageIndexed addr s.y)
  | .abs addr => .memory addr
  | .absx base => .memory (indexed base s.x)
  | .absy base => .memory (indexed base s.y)
  | .ind pointer => .memory (read16 s pointer (indirectHighAddr pointer))
  | .indx pointer => .memory (zeroPagePointer s (pointer + s.x))
  | .indy pointer => .memory (indexed (zeroPagePointer s pointer) s.y)
  | .rel offset => .target (branchTarget s.pc offset)

/-- The effective address lies in another page than the base address (R115). -/
def otherPage (base ea : Addr) : Bool := hiByte ea != hiByte base

/-- `crossed`: computed by ABSX, ABSY and INDY, false for every other mode (R104, R105, R108, R115). -/
def crossed (o : Operand) (s : State) : Bool :=
  match o with
  | .imp => false
  | .acc => false
  | .imm _ => false
  | .zp _ => false
  | .zpx _ => false
  | .zpy _ => false
  | .abs _ => false
  | .absx base => otherPage base (indexed base s.x)
  | .absy base => otherPage base (indexed base s.y)
  | .ind _ => false
  | .indx _ => false
  | .indy pointer => otherPage (zeroPagePointer s pointer) (indexed (zeroPagePointer s pointer) s.y)
  | .rel _ => false

/-! ## The operand -/

/-- The byte a resolved operand holds. IMP and REL hold none: no well-formed instruction reads one, and the answer for
them reaches no next state (assumption log 31). -/
def readResolved (r : Resolved) (s : State) : Byte :=
  match r with
  | .nothing => 0
  | .accumulator => s.a
  | .immediate _ value => value
  | .memory ea => busRead s ea
  | .target _ => 0

/-- The byte written to a resolved operand: `A <- v` or `MemWrite(ea, 1, v)`. The other forms are written by no
well-formed instruction. -/
def writeResolved (r : Resolved) (v : Byte) (s : State) : State :=
  match r with
  | .nothing => s
  | .accumulator => { s with a := v }
  | .immediate _ _ => s
  | .memory ea => busWrite ea v s
  | .target _ => s

/-- The value of an operand. -/
def operandValue (o : Operand) (s : State) : Byte := readResolved (resolve o s) s

/-- The operand written, at the place it resolves to in the state the instruction starts from. -/
def writeOperand (o : Operand) (v : Byte) (s : State) : State := writeResolved (resolve o s) v s

/-- The address an instruction with operand `o` stores to, if `o` is in memory. -/
def storeAddr (o : Operand) (s : State) : Option Addr :=
  match resolve o s with
  | .nothing => none
  | .accumulator => none
  | .immediate _ _ => none
  | .memory ea => some ea
  | .target _ => none

/-- `PC <- ea` for a resolved operand that has an effective address (47_jump_branch.md R180). -/
def jumpResolved (r : Resolved) (s : State) : State :=
  match r with
  | .nothing => s
  | .accumulator => s
  | .immediate _ _ => s
  | .memory ea => setPc ea s
  | .target _ => s

/-! ## Cycles (70_reset_and_hazards.md R270) -/

/-- What a dispatch entry charges: its base cycle count and its page-cross-sensitivity flag (30_encoding.md R92). -/
structure Charge where
  base : Nat
  pageCross : Bool
  deriving DecidableEq, Repr

/-- What an entry charges: `UNDEF_CYCLES` for an undefined opcode, be the byte unassigned or its row named UNDEF, and the
row's own count and flag for every other (70_reset_and_hazards.md R270, 48_flags_nop_system.md R211, 30_encoding.md R91). -/
def chargeWith (p : Params) (row : DispatchRow) : Charge :=
  if row.mnemonic = .undef then ⟨p.undefCycles, false⟩ else ⟨row.baseCycles, row.pageCrossExtra⟩

/-- The base cycle count of an instruction at the default parameters: its dispatch entry's, or `UNDEF_CYCLES`. -/
def baseCycles (i : Instr) : Nat :=
  match rowFor i.mnemonic i.mode with
  | some r => r.baseCycles
  | none => Config.undefCycles

/-- The page-cross-sensitivity flag of an instruction's dispatch entry at the default parameters
(40_addressing_modes.md R113). -/
def pageCrossExtra (i : Instr) : Bool :=
  match rowFor i.mnemonic i.mode with
  | some r => r.pageCrossExtra
  | none => false

/-- What an instruction charges at the default parameters. None for a term that is no instruction of the hardware
(assumption log 21). -/
def chargeOf (i : Instr) : Option Charge := if i.wf then some ⟨baseCycles i, pageCrossExtra i⟩ else none

/-- `page_extra`: 1 if the entry's flag is set and the page is crossed (40_addressing_modes.md R116). -/
def Charge.pageExtra (c : Charge) (o : Operand) (s : State) : Nat := if c.pageCross && crossed o s then 1 else 0

/-- `page_extra` at the default parameters. -/
def pageExtra (i : Instr) (s : State) : Nat := if pageCrossExtra i && crossed i.operand s then 1 else 0

/-- The `extra` of a branch: 0 not taken, 1 taken, 2 taken to another page than `PC_next` (47_jump_branch.md R183). -/
def branchExtra (cond : Bool) (target pcNext : Addr) : Nat :=
  if cond then (if hiByte target != hiByte pcNext then 2 else 1) else 0

/-! ## Completing an instruction -/

/-- The end of an instruction: from state `s` (with `PC = PC_next`) its rule's pseudocode gave `t` and the cycles
`extra`; `cycle_count` grows by the base count, the page-crossing cycle and `extra` (70_reset_and_hazards.md R270,
60_exceptions.md R241; assumption log 24). Where there is no charge the term is no instruction of the hardware and is refused
by name (assumption log 21). -/
def retire (charge : Option Charge) (i : Instr) (s : State) (extra : Nat) (t : State) : Host.Outcome State Fault Refusal :=
  match charge with
  | some c => .next (addCycles (c.base + c.pageExtra i.operand s + extra) t)
  | none => .refused .noSuchForm

end Sys2Proof.Machine
end

