-- ==== Sys2Proof/Machine/Arithmetic.lean ====
section
/-! DEFINITION. Arithmetic and compare instructions (45_arithmetic_compare.md R160 to R166). Every meaning is applied to the
state whose `PC` is `PC_next`; the entry's `charge` is that of the default table where none is named. -/

namespace Sys2Proof.Machine

/-- `A` and the flags `C`, `V`, `Z`, `N` from the shared adder on `A`, `m` and `C` (45_arithmetic_compare.md R160, R161). -/
def addToA (m : Byte) (s : State) : State :=
  let res := addCore s.a m s.flags.c
  { s with a := res.r, flags := addFlags res s.flags }

/-- ADC: `AddCore(A, m, C)` (45_arithmetic_compare.md R160). -/
def execAdc (o : Operand) (s : State) (charge : Option Charge := chargeOf (.adc o)) : Host.Outcome State Fault Refusal :=
  retire charge (.adc o) s 0 (addToA (operandValue o s) s)

/-- SBC: `AddCore(A, ~m, C)` (45_arithmetic_compare.md R161). -/
def execSbc (o : Operand) (s : State) (charge : Option Charge := chargeOf (.sbc o)) : Host.Outcome State Fault Refusal :=
  retire charge (.sbc o) s 0 (addToA (~~~ operandValue o s) s)

/-- CMP: compare `A` with memory, `A` and `V` unchanged (45_arithmetic_compare.md R162). -/
def execCmp (o : Operand) (s : State) (charge : Option Charge := chargeOf (.cmp o)) : Host.Outcome State Fault Refusal :=
  retire charge (.cmp o) s 0 (setFlags (compareFlags s.a (operandValue o s) s.flags) s)

/-- CPX: compare `X` with memory, `X` and `V` unchanged (45_arithmetic_compare.md R165). -/
def execCpx (o : Operand) (s : State) (charge : Option Charge := chargeOf (.cpx o)) : Host.Outcome State Fault Refusal :=
  retire charge (.cpx o) s 0 (setFlags (compareFlags s.x (operandValue o s) s.flags) s)

/-- CPY: compare `Y` with memory, `Y` and `V` unchanged (45_arithmetic_compare.md R166). -/
def execCpy (o : Operand) (s : State) (charge : Option Charge := chargeOf (.cpy o)) : Host.Outcome State Fault Refusal :=
  retire charge (.cpy o) s 0 (setFlags (compareFlags s.y (operandValue o s) s.flags) s)

end Sys2Proof.Machine
end

