-- ==== Sys2Proof/Machine/FlagSystem.lean ====
section
/-! DEFINITION. Flag instructions, NOP, BRK, RTI, undefined opcodes (48_flags_nop_system.md R200 to R211). Every meaning is applied to the
state whose `PC` is `PC_next`; the entry's `charge` is that of the default table where none is named. -/

namespace Sys2Proof.Machine

/-- CLC: `C <- 0` (48_flags_nop_system.md R200). -/
def execClc (s : State) (charge : Option Charge := chargeOf .clc) : Host.Outcome State Fault Refusal :=
  retire charge .clc s 0 (setFlags { s.flags with c := false } s)

/-- CLD: `D <- 0` (48_flags_nop_system.md R201). -/
def execCld (s : State) (charge : Option Charge := chargeOf .cld) : Host.Outcome State Fault Refusal :=
  retire charge .cld s 0 (setFlags { s.flags with d := false } s)

/-- CLI: `I <- 0` (48_flags_nop_system.md R202). -/
def execCli (s : State) (charge : Option Charge := chargeOf .cli) : Host.Outcome State Fault Refusal :=
  retire charge .cli s 0 (setFlags { s.flags with i := false } s)

/-- CLV: `V <- 0` (48_flags_nop_system.md R203). -/
def execClv (s : State) (charge : Option Charge := chargeOf .clv) : Host.Outcome State Fault Refusal :=
  retire charge .clv s 0 (setFlags { s.flags with v := false } s)

/-- SEC: `C <- 1` (48_flags_nop_system.md R204). -/
def execSec (s : State) (charge : Option Charge := chargeOf .sec) : Host.Outcome State Fault Refusal :=
  retire charge .sec s 0 (setFlags { s.flags with c := true } s)

/-- SED: `D <- 1` (48_flags_nop_system.md R205). -/
def execSed (s : State) (charge : Option Charge := chargeOf .sed) : Host.Outcome State Fault Refusal :=
  retire charge .sed s 0 (setFlags { s.flags with d := true } s)

/-- SEI: `I <- 1` (48_flags_nop_system.md R206). -/
def execSei (s : State) (charge : Option Charge := chargeOf .sei) : Host.Outcome State Fault Refusal :=
  retire charge .sei s 0 (setFlags { s.flags with i := true } s)

/-- NOP: nothing but the cycles and `PC = PC_next` (48_flags_nop_system.md R207). -/
def execNop (s : State) (charge : Option Charge := chargeOf .nop) : Host.Outcome State Fault Refusal :=
  retire charge .nop s 0 s

/-- BRK: the trap entry with return address `PC_next + 1`, the status byte with bit 4 set, and the IRQ/BRK vector
(48_flags_nop_system.md R208; assumption log 13). -/
def execBrk (s : State) (charge : Option Charge := chargeOf .brk) : Host.Outcome State Fault Refusal :=
  retire charge .brk s 0 (enterTrap (s.pc + 1) (compose s.flags ||| 0x10) irqVector s)

/-- RTI: the return from a trap (48_flags_nop_system.md R209). -/
def execRti (s : State) (charge : Option Charge := chargeOf .rti) : Host.Outcome State Fault Refusal :=
  retire charge .rti s 0 (returnFromTrap s)

/-- UNDEF: an undefined opcode is a no-op (48_flags_nop_system.md R211; assumption log 5). -/
def execUndef (opcode : Byte) (s : State) (charge : Option Charge := chargeOf (.undef opcode)) : Host.Outcome State Fault Refusal :=
  retire charge (.undef opcode) s 0 s

end Sys2Proof.Machine
end

