-- ==== Sys2Proof/Machine/IncDec.lean ====
section
/-! DEFINITION. Increment and decrement instructions (46_incdec.md R170 to R175). Every meaning is applied to the
state whose `PC` is `PC_next`; the entry's `charge` is that of the default table where none is named. -/

namespace Sys2Proof.Machine

/-- The operand in memory written with `r`, `Z` and `N` from `r` (46_incdec.md R170, R171). -/
def storeResult (o : Operand) (r : Byte) (s : State) : State := setFlags (setZN r s.flags) (writeOperand o r s)

/-- INC: `r = (v + 1) mod 256`, written back (46_incdec.md R170). -/
def execInc (o : Operand) (s : State) (charge : Option Charge := chargeOf (.inc o)) : Host.Outcome State Fault Refusal :=
  retire charge (.inc o) s 0 (storeResult o (operandValue o s + 1) s)

/-- DEC: `r = (v - 1) mod 256`, written back (46_incdec.md R171). -/
def execDec (o : Operand) (s : State) (charge : Option Charge := chargeOf (.dec o)) : Host.Outcome State Fault Refusal :=
  retire charge (.dec o) s 0 (storeResult o (operandValue o s - 1) s)

/-- INX: `X <- (X + 1) mod 256; SetZN(X)` (46_incdec.md R172). -/
def execInx (s : State) (charge : Option Charge := chargeOf .inx) : Host.Outcome State Fault Refusal :=
  retire charge .inx s 0 (loadX (s.x + 1) s)

/-- INY: `Y <- (Y + 1) mod 256; SetZN(Y)` (46_incdec.md R173). -/
def execIny (s : State) (charge : Option Charge := chargeOf .iny) : Host.Outcome State Fault Refusal :=
  retire charge .iny s 0 (loadY (s.y + 1) s)

/-- DEX: `X <- (X - 1) mod 256; SetZN(X)` (46_incdec.md R174). -/
def execDex (s : State) (charge : Option Charge := chargeOf .dex) : Host.Outcome State Fault Refusal :=
  retire charge .dex s 0 (loadX (s.x - 1) s)

/-- DEY: `Y <- (Y - 1) mod 256; SetZN(Y)` (46_incdec.md R175). -/
def execDey (s : State) (charge : Option Charge := chargeOf .dey) : Host.Outcome State Fault Refusal :=
  retire charge .dey s 0 (loadY (s.y - 1) s)

end Sys2Proof.Machine
end

