-- ==== Sys2Proof/Machine/JumpBranch.lean ====
section
/-! DEFINITION. Jumps, subroutine call and return, branches (47_jump_branch.md R180 to R192). Every meaning is applied to the
state whose `PC` is `PC_next`; the entry's `charge` is that of the default table where none is named. -/

namespace Sys2Proof.Machine

/-- JMP: `PC <- ea` (47_jump_branch.md R180). -/
def execJmp (o : Operand) (s : State) (charge : Option Charge := chargeOf (.jmp o)) : Host.Outcome State Fault Refusal :=
  retire charge (.jmp o) s 0 (jumpResolved (resolve o s) s)

/-- JSR: `PC_next - 1` is pushed, high byte first, then `PC <- ea` (47_jump_branch.md R181; assumption log 13). -/
def execJsr (target : Addr) (s : State) (charge : Option Charge := chargeOf (.jsr target)) : Host.Outcome State Fault Refusal :=
  retire charge (.jsr target) s 0 (setPc target (pushWord (s.pc - 1) s))

/-- RTS: the return address is pulled, low byte first, and `PC` set to it plus 1 (47_jump_branch.md R182). -/
def execRts (s : State) (charge : Option Charge := chargeOf .rts) : Host.Outcome State Fault Refusal :=
  retire charge .rts s 0 (setPc ((pullWord s).1 + 1) (pullWord s).2)

/-- What the eight branches share: if `cond` holds, `PC <- target`, and the cycles of R183 (47_jump_branch.md R183). -/
def branch (charge : Option Charge) (i : Instr) (cond : Bool) (offset : Byte) (s : State) : Host.Outcome State Fault Refusal :=
  let target := branchTarget s.pc offset
  retire charge i s (branchExtra cond target s.pc) (if cond then setPc target s else s)

/-- BCC: branch if `C == 0` (47_jump_branch.md R184). -/
def execBcc (offset : Byte) (s : State) (charge : Option Charge := chargeOf (.bcc offset)) : Host.Outcome State Fault Refusal :=
  branch charge (.bcc offset) (!s.flags.c) offset s

/-- BCS: branch if `C == 1` (47_jump_branch.md R185). -/
def execBcs (offset : Byte) (s : State) (charge : Option Charge := chargeOf (.bcs offset)) : Host.Outcome State Fault Refusal :=
  branch charge (.bcs offset) s.flags.c offset s

/-- BEQ: branch if `Z == 1` (47_jump_branch.md R186). -/
def execBeq (offset : Byte) (s : State) (charge : Option Charge := chargeOf (.beq offset)) : Host.Outcome State Fault Refusal :=
  branch charge (.beq offset) s.flags.z offset s

/-- BNE: branch if `Z == 0` (47_jump_branch.md R187). -/
def execBne (offset : Byte) (s : State) (charge : Option Charge := chargeOf (.bne offset)) : Host.Outcome State Fault Refusal :=
  branch charge (.bne offset) (!s.flags.z) offset s

/-- BMI: branch if `N == 1` (47_jump_branch.md R188). -/
def execBmi (offset : Byte) (s : State) (charge : Option Charge := chargeOf (.bmi offset)) : Host.Outcome State Fault Refusal :=
  branch charge (.bmi offset) s.flags.n offset s

/-- BPL: branch if `N == 0` (47_jump_branch.md R189). -/
def execBpl (offset : Byte) (s : State) (charge : Option Charge := chargeOf (.bpl offset)) : Host.Outcome State Fault Refusal :=
  branch charge (.bpl offset) (!s.flags.n) offset s

/-- BVC: branch if `V == 0` (47_jump_branch.md R190). -/
def execBvc (offset : Byte) (s : State) (charge : Option Charge := chargeOf (.bvc offset)) : Host.Outcome State Fault Refusal :=
  branch charge (.bvc offset) (!s.flags.v) offset s

/-- BVS: branch if `V == 1` (47_jump_branch.md R191). -/
def execBvs (offset : Byte) (s : State) (charge : Option Charge := chargeOf (.bvs offset)) : Host.Outcome State Fault Refusal :=
  branch charge (.bvs offset) s.flags.v offset s

end Sys2Proof.Machine
end

