-- ==== Sys2Proof/Machine/LoadStore.lean ====
section
/-! DEFINITION. Load and store instructions (41_load_store.md R120 to R125). Every meaning is applied to the
state whose `PC` is `PC_next`; the entry's `charge` is that of the default table where none is named. -/

namespace Sys2Proof.Machine

/-- LDA: `A <- MemRead(ea, 1); SetZN(A)` (41_load_store.md R120). -/
def execLda (o : Operand) (s : State) (charge : Option Charge := chargeOf (.lda o)) : Host.Outcome State Fault Refusal :=
  retire charge (.lda o) s 0 (loadA (operandValue o s) s)

/-- LDX: `X <- MemRead(ea, 1); SetZN(X)` (41_load_store.md R121). -/
def execLdx (o : Operand) (s : State) (charge : Option Charge := chargeOf (.ldx o)) : Host.Outcome State Fault Refusal :=
  retire charge (.ldx o) s 0 (loadX (operandValue o s) s)

/-- LDY: `Y <- MemRead(ea, 1); SetZN(Y)` (41_load_store.md R122). -/
def execLdy (o : Operand) (s : State) (charge : Option Charge := chargeOf (.ldy o)) : Host.Outcome State Fault Refusal :=
  retire charge (.ldy o) s 0 (loadY (operandValue o s) s)

/-- STA: `MemWrite(ea, 1, A)`, no flag and no read of `ea` (41_load_store.md R123). -/
def execSta (o : Operand) (s : State) (charge : Option Charge := chargeOf (.sta o)) : Host.Outcome State Fault Refusal :=
  retire charge (.sta o) s 0 (writeOperand o s.a s)

/-- STX: `MemWrite(ea, 1, X)`, no flag and no read of `ea` (41_load_store.md R124). -/
def execStx (o : Operand) (s : State) (charge : Option Charge := chargeOf (.stx o)) : Host.Outcome State Fault Refusal :=
  retire charge (.stx o) s 0 (writeOperand o s.x s)

/-- STY: `MemWrite(ea, 1, Y)`, no flag and no read of `ea` (41_load_store.md R125). -/
def execSty (o : Operand) (s : State) (charge : Option Charge := chargeOf (.sty o)) : Host.Outcome State Fault Refusal :=
  retire charge (.sty o) s 0 (writeOperand o s.y s)

end Sys2Proof.Machine
end

