-- ==== Sys2Proof/Machine/Logical.lean ====
section
/-! DEFINITION. Logical instructions and BIT (43_logical_bit.md R145 to R148). Every meaning is applied to the
state whose `PC` is `PC_next`; the entry's `charge` is that of the default table where none is named. -/

namespace Sys2Proof.Machine

/-- AND: `A <- A & m; SetZN(A)` (43_logical_bit.md R145). -/
def execAnd (o : Operand) (s : State) (charge : Option Charge := chargeOf (.and o)) : Host.Outcome State Fault Refusal :=
  retire charge (.and o) s 0 (loadA (s.a &&& operandValue o s) s)

/-- ORA: `A <- A | m; SetZN(A)` (43_logical_bit.md R146). -/
def execOra (o : Operand) (s : State) (charge : Option Charge := chargeOf (.ora o)) : Host.Outcome State Fault Refusal :=
  retire charge (.ora o) s 0 (loadA (s.a ||| operandValue o s) s)

/-- EOR: `A <- A ^ m; SetZN(A)` (43_logical_bit.md R147). -/
def execEor (o : Operand) (s : State) (charge : Option Charge := chargeOf (.eor o)) : Host.Outcome State Fault Refusal :=
  retire charge (.eor o) s 0 (loadA (s.a ^^^ operandValue o s) s)

/-- BIT: `Z <- ((A & m) == 0); N <- m[7]; V <- m[6]`, `A` unchanged (43_logical_bit.md R148). -/
def execBit (o : Operand) (s : State) (charge : Option Charge := chargeOf (.bit o)) : Host.Outcome State Fault Refusal :=
  retire charge (.bit o) s 0 (setFlags (bitFlags s.a (operandValue o s) s.flags) s)

end Sys2Proof.Machine
end

