-- ==== Sys2Proof/Machine/Shift.lean ====
section
/-! DEFINITION. Shift and rotate instructions (44_shift_rotate.md R153 to R156). Every meaning is applied to the
state whose `PC` is `PC_next`; the entry's `charge` is that of the default table where none is named. -/

namespace Sys2Proof.Machine

/-- The shape of a shift or rotate: the operand is written with the result, `C` receives the bit shifted out, `Z` and `N`
are set from the result (44_shift_rotate.md, head). -/
def shiftOperand (f : Byte → ShiftResult) (o : Operand) (s : State) : State :=
  let res := f (operandValue o s)
  setFlags (shiftFlags res s.flags) (writeOperand o res.r s)

/-- ASL: `r = (v << 1) & 0xFF; C <- v[7]`, `Z` and `N` from `r`, `r` written back (44_shift_rotate.md R153). -/
def execAsl (o : Operand) (s : State) (charge : Option Charge := chargeOf (.asl o)) : Host.Outcome State Fault Refusal :=
  retire charge (.asl o) s 0 (shiftOperand shiftAsl o s)

/-- LSR: `r = v >> 1; C <- v[0]`, `Z` and `N` from `r`, `r` written back (44_shift_rotate.md R154). -/
def execLsr (o : Operand) (s : State) (charge : Option Charge := chargeOf (.lsr o)) : Host.Outcome State Fault Refusal :=
  retire charge (.lsr o) s 0 (shiftOperand shiftLsr o s)

/-- ROL: `r = ((v << 1) & 0xFF) | c_old; C <- v[7]`, `Z` and `N` from `r`, `r` written back (44_shift_rotate.md R155). -/
def execRol (o : Operand) (s : State) (charge : Option Charge := chargeOf (.rol o)) : Host.Outcome State Fault Refusal :=
  retire charge (.rol o) s 0 (shiftOperand (fun v => shiftRol v s.flags.c) o s)

/-- ROR: `r = (v >> 1) | (c_old << 7); C <- v[0]`, `Z` and `N` from `r`, `r` written back (44_shift_rotate.md R156). -/
def execRor (o : Operand) (s : State) (charge : Option Charge := chargeOf (.ror o)) : Host.Outcome State Fault Refusal :=
  retire charge (.ror o) s 0 (shiftOperand (fun v => shiftRor v s.flags.c) o s)

end Sys2Proof.Machine
end

