-- ==== Sys2Proof/Machine/TransferStack.lean ====
section
/-! DEFINITION. Register transfer and stack instructions (42_transfer_stack.md R130 to R139). Every meaning is applied to the
state whose `PC` is `PC_next`; the entry's `charge` is that of the default table where none is named. -/

namespace Sys2Proof.Machine

/-- TAX: `X <- A; SetZN(X)` (42_transfer_stack.md R130). -/
def execTax (s : State) (charge : Option Charge := chargeOf .tax) : Host.Outcome State Fault Refusal :=
  retire charge .tax s 0 (loadX s.a s)

/-- TAY: `Y <- A; SetZN(Y)` (42_transfer_stack.md R131). -/
def execTay (s : State) (charge : Option Charge := chargeOf .tay) : Host.Outcome State Fault Refusal :=
  retire charge .tay s 0 (loadY s.a s)

/-- TXA: `A <- X; SetZN(A)` (42_transfer_stack.md R132). -/
def execTxa (s : State) (charge : Option Charge := chargeOf .txa) : Host.Outcome State Fault Refusal :=
  retire charge .txa s 0 (loadA s.x s)

/-- TYA: `A <- Y; SetZN(A)` (42_transfer_stack.md R133). -/
def execTya (s : State) (charge : Option Charge := chargeOf .tya) : Host.Outcome State Fault Refusal :=
  retire charge .tya s 0 (loadA s.y s)

/-- TSX: `X <- SP; SetZN(X)` (42_transfer_stack.md R134). -/
def execTsx (s : State) (charge : Option Charge := chargeOf .tsx) : Host.Outcome State Fault Refusal :=
  retire charge .tsx s 0 (loadX s.sp s)

/-- TXS: `SP <- X`, no flag (42_transfer_stack.md R135). -/
def execTxs (s : State) (charge : Option Charge := chargeOf .txs) : Host.Outcome State Fault Refusal :=
  retire charge .txs s 0 (setSp s.x s)

/-- PHA: `Push(A)` (42_transfer_stack.md R136). -/
def execPha (s : State) (charge : Option Charge := chargeOf .pha) : Host.Outcome State Fault Refusal :=
  retire charge .pha s 0 (push s.a s)

/-- PHP: `Push(Compose())`, bit 4 the stored `B` (42_transfer_stack.md R137; assumption log 9). -/
def execPhp (s : State) (charge : Option Charge := chargeOf .php) : Host.Outcome State Fault Refusal :=
  retire charge .php s 0 (push (compose s.flags) s)

/-- PLA: `A <- Pull(); SetZN(A)` (42_transfer_stack.md R138). -/
def execPla (s : State) (charge : Option Charge := chargeOf .pla) : Host.Outcome State Fault Refusal :=
  retire charge .pla s 0 (loadA (pull s).1 (pull s).2)

/-- PLP: `Apply(Pull())`, all eight flags (42_transfer_stack.md R139). -/
def execPlp (s : State) (charge : Option Charge := chargeOf .plp) : Host.Outcome State Fault Refusal :=
  retire charge .plp s 0 (setFlags (applyStatus (pull s).1) (pull s).2)

end Sys2Proof.Machine
end

