-- ==== Sys2Proof/Machine/Sequencer.lean ====
section
/-! DEFINITION. The interrupt sequencer (60_exceptions.md R223 to R230): the poll at an instruction boundary and the two
services. -/

namespace Sys2Proof.Machine

/-- What a step does at its boundary (60_exceptions.md R223). -/
inductive Boundary where
  | serviceNmi
  | serviceIrq
  | executeInstruction
  deriving DecidableEq, Repr

/-- The poll: NMI before IRQ, IRQ only when `I` is clear, `I` read as it stands at the boundary
(60_exceptions.md R223, R227, R228; assumption logs 12 and 16). -/
def poll (s : State) : Boundary :=
  if s.nmiPending then .serviceNmi
  else if s.irqPending && !s.flags.i then .serviceIrq
  else .executeInstruction

/-- The cycles an interrupt service is charged (00_scope.md R5, 60_exceptions.md R225, R226). -/
def serviceCycles : Nat := 7

/-- The status byte a service pushes: `Compose()` with bit 4 clear (60_exceptions.md R225, 10_state.md R40). -/
def serviceStatus (f : Flags) : Byte := compose f &&& 0xEF

/-- `ServiceNMI()`: the trap entry from `PC` through the NMI vector, and the latch cleared (60_exceptions.md R225). -/
def serviceNMI (s : State) : State :=
  addCycles serviceCycles { enterTrap s.pc (serviceStatus s.flags) nmiVector s with nmiPending := false }

/-- `ServiceIRQ()`: the trap entry from `PC` through the IRQ/BRK vector, the latch kept (60_exceptions.md R226; that the
service sets `I` is the spec's decision D7, assumption log 8). -/
def serviceIRQ (s : State) : State :=
  addCycles serviceCycles (enterTrap s.pc (serviceStatus s.flags) irqVector s)

/-- The state with the latches lowered that the next poll would answer with a service: its next step executes an
instruction. -/
def withNoService (s : State) : State :=
  { s with nmiPending := false, irqPending := s.irqPending && s.flags.i }

end Sys2Proof.Machine
end

