-- ==== Sys2Proof/Machine/Step.lean ====
section
/-! DEFINITION. One step of the core (60_exceptions.md R223, R241): the poll, then one service or one instruction. -/

namespace Sys2Proof.Machine

/-- The instruction at `PC` fetched, with `PC = PC_next`, and executed (30_encoding.md R80). -/
def executeNext (s : State) : Host.Outcome State Fault Refusal := exec (fetchInstr s).1 (fetchInstr s).2

/-- `step()` (60_exceptions.md R241). -/
def step (s : State) : Host.Outcome State Fault Refusal :=
  match poll s with
  | .serviceNmi => .next (serviceNMI s)
  | .serviceIrq => .next (serviceIRQ s)
  | .executeInstruction => executeNext s

/-- What an outcome adds to the `cycle_count` of `s`. -/
def cyclesGained (s : State) : Host.Outcome State Fault Refusal → Nat
  | .next t => t.cycleCount - s.cycleCount
  | .fault _ => 0
  | .refused _ => 0

/-- The number of cycles `step()` returns: what it adds to `cycle_count` (60_exceptions.md R241; assumption log 29). -/
def stepCycles (s : State) : Nat := cyclesGained s (step s)

/-- The state with the table word `w` of `nbits` bits stored at `PC`, its bits above `nbits` zero up to the longest
instruction, and no interrupt service due, so that the next step executes exactly that instruction
(assumption log 2). -/
def State.withFetchWord (s : State) (nbits w : Nat) : State :=
  let t := withNoService s
  { t with mem := t.mem.load t.pc (tableWordBytes nbits w) }

end Sys2Proof.Machine
end

