-- ==== Sys2Proof/Machine/Bus.lean ====
section
/-! DEFINITION. The bus transactions of a step, in order (20_memory.md R54, R60, R62; 30_encoding.md R80): all instruction
bytes, then pointer bytes, then the data read, then the data write or the pushes, then the vector bytes, and no other
(assumption log 15). A second account of a step, from the outside of the core: `replay` runs it on a memory. -/

namespace Sys2Proof.Machine

/-- One bus transaction: `read8` with the byte it returned, or `write8` (20_memory.md R54). -/
inductive BusAccess where
  | rd (addr : Addr) (value : Byte)
  | wr (addr : Addr) (value : Byte)
  deriving DecidableEq, Repr

/-- The read of one address in a state. -/
def rdAt (s : State) (a : Addr) : BusAccess := .rd a (busRead s a)

/-- The reads of `n` consecutive addresses, as `Fetch8()` makes them. -/
def fetchReads : Nat → Addr → State → List BusAccess
  | 0, _, _ => []
  | n + 1, a, s => rdAt s a :: fetchReads n (a + 1) s

/-- The fetch of the instruction at `PC`: its opcode and operand bytes (30_encoding.md R80). DESIGN CHOICE: the further bytes
of an undefined opcode at an `UNDEF_LEN` above 1 are listed as reads (assumption log 34). -/
def fetchBusBy (length : Byte → Nat) (s : State) : List BusAccess := fetchReads (length (busRead s s.pc)) s.pc s

/-- The fetch at the default parameters. -/
def fetchBus (s : State) : List BusAccess := fetchBusBy opcodeLength s

/-- The pointer reads of a mode (40_addressing_modes.md R106, R107, R108). -/
def pointerBus (o : Operand) (s : State) : List BusAccess :=
  match o with
  | .imp => []
  | .acc => []
  | .imm _ => []
  | .zp _ => []
  | .zpx _ => []
  | .zpy _ => []
  | .abs _ => []
  | .absx _ => []
  | .absy _ => []
  | .ind pointer => [rdAt s pointer, rdAt s (indirectHighAddr pointer)]
  | .indx pointer => [rdAt s (word16 0 (pointer + s.x)), rdAt s (word16 0 (pointer + s.x + 1))]
  | .indy pointer => [rdAt s (word16 0 pointer), rdAt s (word16 0 (pointer + 1))]
  | .rel _ => []

/-- The data read of an instruction that reads its operand. The immediate operand was read by the fetch
(40_addressing_modes.md R109). -/
def readBus (o : Operand) (s : State) : List BusAccess :=
  pointerBus o s ++ ((storeAddr o s).map (rdAt s)).toList

/-- The write of an instruction that stores `v` to its operand. -/
def writeBus (o : Operand) (v : Byte) (s : State) : List BusAccess :=
  pointerBus o s ++ ((storeAddr o s).map fun ea => BusAccess.wr ea v).toList

/-- The read and the write of an instruction that replaces its operand by `r` (44_shift_rotate.md, head). -/
def modifyBus (o : Operand) (r : Byte) (s : State) : List BusAccess :=
  readBus o s ++ ((storeAddr o s).map fun ea => BusAccess.wr ea r).toList

/-- The writes of pushes, in the order of the list (10_state.md R27). -/
def pushBus : List Byte → Byte → List BusAccess
  | [], _ => []
  | b :: rest, sp => .wr (stackAddr (sp - 1)) b :: pushBus rest (sp - 1)

/-- The reads of `n` pulls (10_state.md R28). -/
def pullBus : Nat → Byte → State → List BusAccess
  | 0, _, _ => []
  | n + 1, sp, s => rdAt s (stackAddr sp) :: pullBus n (sp + 1) s

/-- The three pushes and the two vector reads of a trap entry (60_exceptions.md R230). -/
def trapBus (ret : Addr) (status : Byte) (vector : Addr) (s : State) : List BusAccess :=
  let saved := push status (pushWord ret s)
  pushBus [hiByte ret, loByte ret, status] s.sp ++ [rdAt saved vector, rdAt saved (vector + 1)]

/-- The transactions of an instruction after its bytes are fetched, on the state with `PC = PC_next` (20_memory.md R60). -/
def instrBus (i : Instr) (s : State) : List BusAccess :=
  match i with
  | .lda o => readBus o s
  | .ldx o => readBus o s
  | .ldy o => readBus o s
  | .sta o => writeBus o s.a s
  | .stx o => writeBus o s.x s
  | .sty o => writeBus o s.y s
  | .tax => []
  | .tay => []
  | .txa => []
  | .tya => []
  | .tsx => []
  | .txs => []
  | .pha => pushBus [s.a] s.sp
  | .php => pushBus [compose s.flags] s.sp
  | .pla => pullBus 1 s.sp s
  | .plp => pullBus 1 s.sp s
  | .and o => readBus o s
  | .ora o => readBus o s
  | .eor o => readBus o s
  | .bit o => readBus o s
  | .asl o => modifyBus o (shiftAsl (operandValue o s)).r s
  | .lsr o => modifyBus o (shiftLsr (operandValue o s)).r s
  | .rol o => modifyBus o (shiftRol (operandValue o s) s.flags.c).r s
  | .ror o => modifyBus o (shiftRor (operandValue o s) s.flags.c).r s
  | .adc o => readBus o s
  | .sbc o => readBus o s
  | .cmp o => readBus o s
  | .cpx o => readBus o s
  | .cpy o => readBus o s
  | .inc o => modifyBus o (operandValue o s + 1) s
  | .dec o => modifyBus o (operandValue o s - 1) s
  | .inx => []
  | .iny => []
  | .dex => []
  | .dey => []
  | .jmp o => pointerBus o s
  | .jsr _ => pushBus [hiByte (s.pc - 1), loByte (s.pc - 1)] s.sp
  | .rts => pullBus 2 s.sp s
  | .bcc _ => []
  | .bcs _ => []
  | .beq _ => []
  | .bne _ => []
  | .bmi _ => []
  | .bpl _ => []
  | .bvc _ => []
  | .bvs _ => []
  | .clc => []
  | .cld => []
  | .cli => []
  | .clv => []
  | .sec => []
  | .sed => []
  | .sei => []
  | .nop => []
  | .brk => trapBus (s.pc + 1) (compose s.flags ||| 0x10) irqVector s
  | .rti => pullBus 3 s.sp s
  | .undef _ => []

/-- The transactions of one step (60_exceptions.md R223, 30_encoding.md R80). -/
def stepBus (s : State) : List BusAccess :=
  match poll s with
  | .serviceNmi => trapBus s.pc (serviceStatus s.flags) nmiVector s
  | .serviceIrq => trapBus s.pc (serviceStatus s.flags) irqVector s
  | .executeInstruction => fetchBus s ++ instrBus (fetchInstr s).1 (fetchInstr s).2

/-- The transactions of `reset()`: exactly two reads, `0xFFFC` then `0xFFFD` (70_reset_and_hazards.md R260). -/
def resetBus (s : State) : List BusAccess := [rdAt s resetVector, rdAt s (resetVector + 1)]

/-- The memory after a list of transactions, if every read returned the byte written last (20_memory.md R50, R62). -/
def replay : List BusAccess → Memory → Option Memory
  | [], m => some m
  | .rd a v :: rest, m => if m.read a = v then replay rest m else none
  | .wr a v :: rest, m => replay rest (m.write a v)

end Sys2Proof.Machine
end

