-- ==== Sys2Proof/Machine/HostOps.lean ====
section
/-! DEFINITION. The host's operations at an instruction boundary (60_exceptions.md R240): reset, the two interrupt
inputs, memory access and the accessors. -/

namespace Sys2Proof.Machine

/-- `reset()`: registers and flags at their reset values and `PC` from the reset vector; memory, `cycle_count` and the
latches unchanged (70_reset_and_hazards.md R260, R262; assumption logs 7 and 18). -/
def hostReset (s : State) : State :=
  { s with a := 0, x := 0, y := 0, sp := resetSp, flags := resetFlags, pc := read16 s resetVector (resetVector + 1) }

/-- `raise_nmi()`: `NMI_pending <- true` (60_exceptions.md R222, 10_state.md R33). -/
def raiseNmi (s : State) : State := { s with nmiPending := true }

/-- `raise_irq(level)`: `IRQ_pending <- level` (60_exceptions.md R222, 10_state.md R34). -/
def raiseIrq (level : Bool) (s : State) : State := { s with irqPending := level }

/-- `load_memory(a, bytes)` (20_memory.md R68; assumption log 33 for more than 65536 bytes). -/
def loadMemory (a : Addr) (bytes : List Byte) (s : State) : State := { s with mem := s.mem.load a bytes }

/-- `read_memory(a)` (20_memory.md R68). -/
def readMemory (a : Addr) (s : State) : Byte := s.mem.read a

/-- What the host can read of the core (10_state.md R39). -/
inductive HostReg where
  | a | x | y | sp | pc | c | z | i | d | b | u | v | n | cycleCount
  deriving DecidableEq, Repr

/-- The accessors: the stored value of each register, each flag as 0 or 1, and `cycle_count` (10_state.md R39). -/
def accessor (r : HostReg) (s : State) : Nat :=
  match r with
  | .a => s.a.toNat
  | .x => s.x.toNat
  | .y => s.y.toNat
  | .sp => s.sp.toNat
  | .pc => s.pc.toNat
  | .c => s.flags.c.toNat
  | .z => s.flags.z.toNat
  | .i => s.flags.i.toNat
  | .d => s.flags.d.toNat
  | .b => s.flags.b.toNat
  | .u => s.flags.u.toNat
  | .v => s.flags.v.toNat
  | .n => s.flags.n.toNat
  | .cycleCount => s.cycleCount

end Sys2Proof.Machine
end

