-- ==== Sys2Proof/Machine/HostRun.lean ====
section
/-! DEFINITION. Runs of the machine under its host: the host's moves between steps, in any order and number
(60_exceptions.md R240; 20_memory.md R62, R63; assumption log 25). -/

namespace Sys2Proof.Machine

/-- A move of the host that can change the state (60_exceptions.md R240). -/
inductive HostMove where
  | step
  | reset
  | raiseNmi
  | raiseIrq (level : Bool)
  | loadMemory (a : Addr) (bytes : List Byte)
  deriving DecidableEq, Repr

/-- One move at an instruction boundary, of a machine that steps by `stepper`. -/
def hostMoveBy (stepper : State → Host.Outcome State Fault Refusal) (move : HostMove) (s : State) :
    Host.Outcome State Fault Refusal :=
  match move with
  | .step => stepper s
  | .reset => .next (hostReset s)
  | .raiseNmi => .next (Sys2Proof.Machine.raiseNmi s)
  | .raiseIrq level => .next (Sys2Proof.Machine.raiseIrq level s)
  | .loadMemory a bytes => .next (Sys2Proof.Machine.loadMemory a bytes s)

/-- A list of moves, one after the other; a fault or a refusal ends the run. -/
def hostRunBy (stepper : State → Host.Outcome State Fault Refusal) : List HostMove → State → Host.Outcome State Fault Refusal
  | [], s => .next s
  | move :: rest, s =>
    match hostMoveBy stepper move s with
    | .next t => hostRunBy stepper rest t
    | .fault r => .fault r
    | .refused r => .refused r

/-- One move of the host of this machine. -/
def hostMove (move : HostMove) (s : State) : Host.Outcome State Fault Refusal := hostMoveBy step move s

/-- A run of the host's moves on this machine. -/
def hostRun (moves : List HostMove) (s : State) : Host.Outcome State Fault Refusal := hostRunBy step moves s

end Sys2Proof.Machine
end

