-- ==== Sys2Proof/Machine/Parametric.lean ====
section
/-! DEFINITION. The machine over its parameters `DISPATCH`, `UNDEF_LEN` and `UNDEF_CYCLES` (00_scope.md R7, 10_state.md
R36): the step, the number it returns, its bus transactions and the runs of host moves, each for any `Params`. The
machine of `Sys2Proof/Machine/Step.lean` is this one at `Params.default` (`step_eq_stepWith`). -/

namespace Sys2Proof.Machine

/-- The meaning of every instruction under the charge of its dispatch entry: the same meanings `exec` calls. -/
def execCharged (charge : Option Charge) (i : Instr) (s : State) : Host.Outcome State Fault Refusal :=
  match i with
  | .lda o => execLda o s charge
  | .ldx o => execLdx o s charge
  | .ldy o => execLdy o s charge
  | .sta o => execSta o s charge
  | .stx o => execStx o s charge
  | .sty o => execSty o s charge
  | .tax => execTax s charge
  | .tay => execTay s charge
  | .txa => execTxa s charge
  | .tya => execTya s charge
  | .tsx => execTsx s charge
  | .txs => execTxs s charge
  | .pha => execPha s charge
  | .php => execPhp s charge
  | .pla => execPla s charge
  | .plp => execPlp s charge
  | .and o => execAnd o s charge
  | .ora o => execOra o s charge
  | .eor o => execEor o s charge
  | .bit o => execBit o s charge
  | .asl o => execAsl o s charge
  | .lsr o => execLsr o s charge
  | .rol o => execRol o s charge
  | .ror o => execRor o s charge
  | .adc o => execAdc o s charge
  | .sbc o => execSbc o s charge
  | .cmp o => execCmp o s charge
  | .cpx o => execCpx o s charge
  | .cpy o => execCpy o s charge
  | .inc o => execInc o s charge
  | .dec o => execDec o s charge
  | .inx => execInx s charge
  | .iny => execIny s charge
  | .dex => execDex s charge
  | .dey => execDey s charge
  | .jmp o => execJmp o s charge
  | .jsr target => execJsr target s charge
  | .rts => execRts s charge
  | .bcc offset => execBcc offset s charge
  | .bcs offset => execBcs offset s charge
  | .beq offset => execBeq offset s charge
  | .bne offset => execBne offset s charge
  | .bmi offset => execBmi offset s charge
  | .bpl offset => execBpl offset s charge
  | .bvc offset => execBvc offset s charge
  | .bvs offset => execBvs offset s charge
  | .clc => execClc s charge
  | .cld => execCld s charge
  | .cli => execCli s charge
  | .clv => execClv s charge
  | .sec => execSec s charge
  | .sed => execSed s charge
  | .sei => execSei s charge
  | .nop => execNop s charge
  | .brk => execBrk s charge
  | .rti => execRti s charge
  | .undef opcode => execUndef opcode s charge

/-! ## An entry's instruction

A table may give a mnemonic a mode that no term of `Instr` has. The mnemonic's rule names only what the resolver returns, so
such an entry runs as the instruction with the same effect on that result. -/

/-- The operand a rule reads: the form itself where it gives an operand. -/
def readForm (o : Operand) (s : State) : Option Operand :=
  match resolve o s with
  | .nothing => none
  | .accumulator => some o
  | .immediate _ _ => some o
  | .memory _ => some o
  | .target _ => none

/-- The operand a rule writes: the form itself, and for the immediate form the location its effective address names
(40_addressing_modes.md R109). -/
def writeForm (o : Operand) (s : State) : Option Operand :=
  match resolve o s with
  | .nothing => none
  | .accumulator => some o
  | .immediate ea _ => some (.abs ea)
  | .memory _ => some o
  | .target _ => none

/-- The effective address of a form that has one. -/
def addressOf (o : Operand) (s : State) : Option Addr :=
  match resolve o s with
  | .nothing => none
  | .accumulator => none
  | .immediate ea _ => some ea
  | .memory ea => some ea
  | .target _ => none

/-- The operand of JMP: the form itself, and for the immediate form its effective address. -/
def jumpForm (o : Operand) (s : State) : Option Operand :=
  match resolve o s with
  | .nothing => none
  | .accumulator => none
  | .immediate ea _ => some (.abs ea)
  | .memory _ => some o
  | .target _ => none

/-- The offset of the relative form. -/
def offsetOf : Operand → Option Byte
  | .imp => none
  | .acc => none
  | .imm _ => none
  | .zp _ => none
  | .zpx _ => none
  | .zpy _ => none
  | .abs _ => none
  | .absx _ => none
  | .absy _ => none
  | .ind _ => none
  | .indx _ => none
  | .indy _ => none
  | .rel offset => some offset

/-- The instruction a decoded entry runs as, on the state with `PC = PC_next`; none where the form does not give the
mnemonic's rule what it names (`Mnemonic.admits`, assumption log 32). A rule without an operand runs in every form. -/
def instrOfEntry (d : Decoded) (s : State) : Option Instr :=
  match d.row.mnemonic with
  | .lda => (readForm d.operand s).map .lda
  | .ldx => (readForm d.operand s).map .ldx
  | .ldy => (readForm d.operand s).map .ldy
  | .sta => (writeForm d.operand s).map .sta
  | .stx => (writeForm d.operand s).map .stx
  | .sty => (writeForm d.operand s).map .sty
  | .tax => some .tax
  | .tay => some .tay
  | .txa => some .txa
  | .tya => some .tya
  | .tsx => some .tsx
  | .txs => some .txs
  | .pha => some .pha
  | .php => some .php
  | .pla => some .pla
  | .plp => some .plp
  | .and => (readForm d.operand s).map .and
  | .ora => (readForm d.operand s).map .ora
  | .eor => (readForm d.operand s).map .eor
  | .bit => (readForm d.operand s).map .bit
  | .asl => (writeForm d.operand s).map .asl
  | .lsr => (writeForm d.operand s).map .lsr
  | .rol => (writeForm d.operand s).map .rol
  | .ror => (writeForm d.operand s).map .ror
  | .adc => (readForm d.operand s).map .adc
  | .sbc => (readForm d.operand s).map .sbc
  | .cmp => (readForm d.operand s).map .cmp
  | .cpx => (readForm d.operand s).map .cpx
  | .cpy => (readForm d.operand s).map .cpy
  | .inc => (writeForm d.operand s).map .inc
  | .dec => (writeForm d.operand s).map .dec
  | .inx => some .inx
  | .iny => some .iny
  | .dex => some .dex
  | .dey => some .dey
  | .jmp => (jumpForm d.operand s).map .jmp
  | .jsr => (addressOf d.operand s).map .jsr
  | .rts => some .rts
  | .bcc => (offsetOf d.operand).map .bcc
  | .bcs => (offsetOf d.operand).map .bcs
  | .beq => (offsetOf d.operand).map .beq
  | .bne => (offsetOf d.operand).map .bne
  | .bmi => (offsetOf d.operand).map .bmi
  | .bpl => (offsetOf d.operand).map .bpl
  | .bvc => (offsetOf d.operand).map .bvc
  | .bvs => (offsetOf d.operand).map .bvs
  | .clc => some .clc
  | .cld => some .cld
  | .cli => some .cli
  | .clv => some .clv
  | .sec => some .sec
  | .sed => some .sed
  | .sei => some .sei
  | .nop => some .nop
  | .brk => some .brk
  | .rti => some .rti
  | .undef => some (.undef d.row.opcode)

/-- A decoded entry executed on the state with `PC = PC_next`: its instruction's meaning, under the entry's charge with the
page-crossing cycle of the entry's own mode (70_reset_and_hazards.md R270). -/
def executeEntry (p : Params) (d : Decoded) (s : State) : Host.Outcome State Fault Refusal :=
  let charge := chargeWith p d.row
  match instrOfEntry d s with
  | some i => execCharged (some ⟨charge.base + charge.pageExtra d.operand s, false⟩) i s
  | none => .refused .noSuchForm

/-- The bytes at `PC` fetched, with `PC = PC_next`, and executed (30_encoding.md R80). -/
def executeNextWith (p : Params) (s : State) : Host.Outcome State Fault Refusal :=
  executeEntry p (fetchInstrWith p s).1 (fetchInstrWith p s).2

/-- `step()` over the parameters (60_exceptions.md R241: the outcome is fixed by the state, the memory and `DISPATCH`). -/
def stepWith (p : Params) (s : State) : Host.Outcome State Fault Refusal :=
  match poll s with
  | .serviceNmi => .next (serviceNMI s)
  | .serviceIrq => .next (serviceIRQ s)
  | .executeInstruction => executeNextWith p s

/-- The number of cycles a step returns (60_exceptions.md R241; assumption log 29). -/
def stepCyclesWith (p : Params) (s : State) : Nat := cyclesGained s (stepWith p s)

/-- The mnemonics that read their operand and write it back (44_shift_rotate.md, 46_incdec.md). -/
def modifiesOperand (m : Mnemonic) : Bool := [Mnemonic.asl, .lsr, .rol, .ror, .inc, .dec].contains m

/-- The transactions of a decoded entry after its bytes are fetched: the pointer reads of its mode, where its instruction
names the address alone, then those of its instruction. The read of an immediate operand is the fetch
(40_addressing_modes.md R109), so an entry that modifies one only writes. -/
def entryBus (d : Decoded) (s : State) : List BusAccess :=
  match instrOfEntry d s with
  | some i =>
    if i.operand = d.operand then instrBus i s
    else if d.operand.mode = .imm && modifiesOperand d.row.mnemonic then (instrBus i s).drop 1
    else pointerBus d.operand s ++ instrBus i s
  | none => []

/-- The bus transactions of one step (60_exceptions.md R223, 30_encoding.md R80). -/
def stepBusWith (p : Params) (s : State) : List BusAccess :=
  match poll s with
  | .serviceNmi => trapBus s.pc (serviceStatus s.flags) nmiVector s
  | .serviceIrq => trapBus s.pc (serviceStatus s.flags) irqVector s
  | .executeInstruction => fetchBusBy p.opcodeLength s ++ entryBus (fetchInstrWith p s).1 (fetchInstrWith p s).2

/-- One move of the host at an instruction boundary (60_exceptions.md R240). -/
def hostMoveWith (p : Params) (move : HostMove) (s : State) : Host.Outcome State Fault Refusal := hostMoveBy (stepWith p) move s

/-- A list of moves, one after the other. -/
def hostRunWith (p : Params) (moves : List HostMove) (s : State) : Host.Outcome State Fault Refusal :=
  hostRunBy (stepWith p) moves s

end Sys2Proof.Machine
end

