-- ==== Sys2Proof/Safety.lean ====
section
/-! DEFINITION. What counts as a safe state and a safe run. The core never stops (60_exceptions.md R241), so a run is
safe when it completes, keeps memory in its canonical form and never lowers `cycle_count` (10_state.md R32). -/

namespace Sys2Proof.Machine

/-- The invariant of the model: memory is in canonical form. -/
def State.Inv (s : State) : Prop := s.mem.wf = true

/-- The step from `s` completes. -/
def StepCompletes (s : State) : Prop := ∃ t, step s = .next t

/-- A run of the host's moves from `s` is safe: it completes, in a state that meets the invariant and has counted no
fewer cycles. -/
def SafeRun (moves : List HostMove) (s : State) : Prop :=
  ∃ t, hostRun moves s = .next t ∧ t.Inv ∧ s.cycleCount ≤ t.cycleCount

end Sys2Proof.Machine
end

