-- ==== Sys2Proof/Certificates/Slice0/Obligations.lean ====
section
/-! DEFINITION. The statements for the provers. Each formalises a numbered rule of spec/ (basis stated) or follows from
the model's reading of several (basis derived). An instruction is executed on the state whose `PC` is already `PC_next`
(30_encoding.md R80), so `s.pc` in a statement about `exec` is `PC_next`. Opcode bytes, mode pairings, cycle counts and
the expansion of the mnemonics are the spec's own choices (decisions D4, D6, D19; assumption logs 3, 4, 17): a
statement about an instruction's result rests on them and has basis derived. -/

open Sys2Proof Sys2Proof.Machine

namespace Sys2Proof.Claims

/-- A function on states carried to outcomes. -/
def mapNext (f : State → State) : Host.Outcome State Fault Refusal → Host.Outcome State Fault Refusal
  | .next s => .next (f s)
  | .fault r => .fault r
  | .refused r => .refused r

/-- The state with the stored `D` set to `x`. -/
def withD (x : Bool) (s : State) : State := { s with flags := { s.flags with d := x } }

/-- The state with the stored `B` set to `x`. -/
def withB (x : Bool) (s : State) : State := { s with flags := { s.flags with b := x } }

/-- The state with the stored `U` set to `x`. -/
def withU (x : Bool) (s : State) : State := { s with flags := { s.flags with u := x } }

/-- The flags `f` with `Z` and `N` set from `v`. -/
def znOf (v : Byte) (f : Flags) : Flags := { f with z := v == 0, n := v.getLsbD 7 }

/-- The stack address `0x0100 + sp` as 16-bit arithmetic. -/
def stackAt (sp : Byte) : Addr := 0x0100 + sp.setWidth 16

/-- `cycle_count` after an instruction that pays no branch cycle. -/
def cyclesAfter (i : Instr) (s : State) : Nat := s.cycleCount + (baseCycles i + pageExtra i s)

/-- The memory after the three pushes of a trap entry, in order (60_exceptions.md R230). -/
def trapMemory (ret : Addr) (status : Byte) (s : State) : Memory :=
  ((s.mem.write (stackAt (s.sp - 1)) (hiByte ret)).write (stackAt (s.sp - 2)) (loByte ret)).write (stackAt (s.sp - 3)) status

/-- The addresses an instruction stores to, each by the function its meaning uses (20_memory.md R60). -/
def storedTo (i : Instr) (s : State) : List Addr :=
  if i.mnemonic ∈ [Mnemonic.sta, .stx, .sty, .asl, .lsr, .rol, .ror, .inc, .dec] then (storeAddr i.operand s).toList
  else if i.mnemonic ∈ [Mnemonic.pha, .php] then [stackAddr (s.sp - 1)]
  else if i.mnemonic = .jsr then [stackAddr (s.sp - 1), stackAddr (s.sp - 2)]
  else if i.mnemonic = .brk then [stackAddr (s.sp - 1), stackAddr (s.sp - 2), stackAddr (s.sp - 3)]
  else []

/-- What a shift or rotate `mk` does in each of its forms: `result v c` is the shifted byte, `out v` the bit shifted out,
with `v` the operand and `c` the old carry. -/
def ShiftsOperand (mk : Operand → Instr) (result : Byte → Bool → Byte) (out : Byte → Bool) : Prop :=
  ∀ (o : Operand) (s : State), (mk o).wf = true →
    (o = .acc ∧
      exec (mk o) s = .next { s with
        a := result s.a s.flags.c
        flags := znOf (result s.a s.flags.c) { s.flags with c := out s.a }
        cycleCount := cyclesAfter (mk o) s }) ∨
    (∃ ea, storeAddr o s = some ea ∧
      exec (mk o) s = .next { s with
        mem := s.mem.write ea (result (s.mem.read ea) s.flags.c)
        flags := znOf (result (s.mem.read ea) s.flags.c) { s.flags with c := out (s.mem.read ea) }
        cycleCount := cyclesAfter (mk o) s })

/-- What a branch `mk` does: `cond` is its flag test, `target` the displaced address (47_jump_branch.md R183). -/
def BranchesWhen (mk : Byte → Instr) (cond : Flags → Bool) : Prop :=
  ∀ (offset : Byte) (s : State),
    exec (mk offset) s = .next
      (if cond s.flags then
        { s with
          pc := s.pc + offset.signExtend 16
          cycleCount := s.cycleCount + (if hiByte (s.pc + offset.signExtend 16) = hiByte s.pc then 3 else 4) }
      else { s with cycleCount := s.cycleCount + 2 })

/-- What a flag instruction does: `change` on the flags, 2 cycles, nothing else. -/
def ChangesFlags (i : Instr) (change : Flags → Flags) : Prop :=
  ∀ s : State, exec i s = .next { s with flags := change s.flags, cycleCount := s.cycleCount + 2 }

/-- What an addition of `operand m` to `A` with the carry does, in integers (45_arithmetic_compare.md R164). -/
def AddsToA (mk : Operand → Instr) (operand : Byte → Byte) : Prop :=
  ∀ (o : Operand) (s : State), (mk o).wf = true →
    ∃ r : Byte, r.toNat = (s.a.toNat + (operand (operandValue o s)).toNat + s.flags.c.toNat) % 256 ∧
      exec (mk o) s = .next { s with
        a := r
        flags := znOf r { s.flags with
          c := decide (255 < s.a.toNat + (operand (operandValue o s)).toNat + s.flags.c.toNat)
          v := decide (s.a.getLsbD 7 = (operand (operandValue o s)).getLsbD 7 ∧ r.getLsbD 7 ≠ s.a.getLsbD 7) }
        cycleCount := cyclesAfter (mk o) s }

/-- What a compare of the register `reg` does (45_arithmetic_compare.md R162). -/
def ComparesRegister (mk : Operand → Instr) (reg : State → Byte) : Prop :=
  ∀ (o : Operand) (s : State), (mk o).wf = true →
    exec (mk o) s = .next { s with
      flags := { s.flags with
        c := decide ((operandValue o s).toNat ≤ (reg s).toNat)
        z := decide (reg s = operandValue o s)
        n := (reg s - operandValue o s).getLsbD 7 }
      cycleCount := cyclesAfter (mk o) s }

/-- The mnemonics that read an operand and write none. -/
abbrev ReadsOnly (m : Mnemonic) : Prop :=
  m ∈ [Mnemonic.lda, .ldx, .ldy, .and, .ora, .eor, .bit, .adc, .sbc, .cmp, .cpx, .cpy]

/-- Base cycles by class and mode, read from the opcode tables of 41 to 48 column by column. -/
def cyclesByClass (i : Instr) : Nat :=
  if ReadsOnly i.mnemonic then
    if i.mode = .imm then 2 else if i.mode = .zp then 3 else if i.mode = .indx then 6 else if i.mode = .indy then 5 else 4
  else if i.mnemonic ∈ [Mnemonic.sta, .stx, .sty] then
    if i.mode = .zp then 3 else if i.mode ∈ [Mode.absx, .absy] then 5 else if i.mode ∈ [Mode.indx, .indy] then 6 else 4
  else if i.mnemonic ∈ [Mnemonic.asl, .lsr, .rol, .ror, .inc, .dec] then
    if i.mode = .acc then 2 else if i.mode = .zp then 5 else if i.mode = .absx then 7 else 6
  else if i.mnemonic = .brk then 7
  else if i.mnemonic ∈ [Mnemonic.jsr, .rts, .rti] then 6
  else if i.mnemonic = .jmp then if i.mode = .ind then 5 else 3
  else if i.mnemonic ∈ [Mnemonic.pla, .plp] then 4
  else if i.mnemonic ∈ [Mnemonic.pha, .php] then 3
  else 2

end Sys2Proof.Claims

open Sys2Proof.Claims

/-! ## Reset, power-on and the host -/

/-- What `reset()` writes, from which vector `PC` comes and its two bus reads (70_reset_and_hazards.md R260), and that
everything else is unchanged: memory and `cycle_count`, and the latches, which R260 does not name. That a later reset leaves
the latches as they are is the spec's own decision D9 (R262, assumption log 7). -/
def Obligations.ResetWritesItsListAndLoadsVector : Prop :=
  ∀ s : State,
    hostReset s = { s with
      a := 0x00, x := 0x00, y := 0x00, sp := 0xFD
      pc := word16 (s.mem.read 0xFFFD) (s.mem.read 0xFFFC)
      flags := { c := false, z := false, i := false, d := false, b := false, u := true, v := false, n := false } } ∧
    compose (hostReset s).flags = 0x20 ∧
    resetBus s = [.rd 0xFFFC (s.mem.read 0xFFFC), .rd 0xFFFD (s.mem.read 0xFFFD)]

/-- Power-on over any memory image. That `cycle_count` is 0 and the latches are clear is the spec's own decision D8
(assumption log 6); that `State.reset` is power-on over the memory with nothing listed is the model's choice
(assumption log 1). -/
def Obligations.PowerOnState : Prop :=
  (∀ m : Memory, State.powerOn m =
    { a := 0x00, x := 0x00, y := 0x00, sp := 0xFD
      pc := word16 (m.read 0xFFFD) (m.read 0xFFFC)
      flags := { c := false, z := false, i := false, d := false, b := false, u := true, v := false, n := false }
      cycleCount := 0, nmiPending := false, irqPending := false, mem := m }) ∧
  State.reset = State.powerOn []

/-- The state after reset meets the invariant of `StepKeepsMemoryCanonical`. -/
def Obligations.ResetMeetsInvariant : Prop := State.reset.Inv

/-- The host's two calls write the latches, only the NMI service clears `NMI_pending` (60_exceptions.md R222), nothing else
writes either latch, and no instruction reads or writes `IRQ_pending` (10_state.md R33, R34). That `reset()` leaves both
latches is the spec's own decision D9 (70_reset_and_hazards.md R262, assumption log 7). -/
def Obligations.LatchesHaveTheirWritersOnly : Prop :=
  (∀ s, raiseNmi s = { s with nmiPending := true }) ∧
  (∀ level s, raiseIrq level s = { s with irqPending := level }) ∧
  (∀ move s t, hostMove move s = .next t → t.irqPending ≠ s.irqPending → ∃ level, move = .raiseIrq level) ∧
  (∀ move s t, hostMove move s = .next t → s.nmiPending = false → t.nmiPending = true → move = .raiseNmi) ∧
  (∀ move s t, hostMove move s = .next t → s.nmiPending = true → t.nmiPending = false → move = .step ∧ t = serviceNMI s) ∧
  (∀ i level s, exec i (raiseIrq level s) = mapNext (raiseIrq level) (exec i s))

/-- 20_memory.md R68: `load_memory` puts each byte at its address and touches nothing else. The wrap past The wrap past `0xFFFF` is the
spec's own inference; of more than 65536 bytes the model keeps the last an address gets (assumption log 33), and the
statement says nothing of that. -/
def Obligations.LoadMemoryPlacesBytes : Prop :=
  ∀ (a : Addr) (bytes : List Byte) (s : State), bytes.length ≤ 65536 →
    (∀ (k : Nat) (h : k < bytes.length), readMemory (a + BitVec.ofNat 16 k) (loadMemory a bytes s) = bytes[k]) ∧
    (∀ b : Addr, (∀ k < bytes.length, b ≠ a + BitVec.ofNat 16 k) → readMemory b (loadMemory a bytes s) = readMemory b s) ∧
    { loadMemory a bytes s with mem := s.mem } = s

/-! ## Memory, the stack and the status byte -/

/-- 20_memory.md R53, whole: a write makes `M[addr] = v` at every address, the vectors included, leaves every other location and
all the rest of the state unchanged, and is one `write8`. -/
def Obligations.BusWritesOneByte : Prop :=
  ∀ (a : Addr) (v : Byte) (s : State),
    busRead (busWrite a v s) a = v ∧
    (∀ b : Addr, b ≠ a → busRead (busWrite a v s) b = busRead s b) ∧
    { busWrite a v s with mem := s.mem } = s ∧
    replay [.wr a v] s.mem = some (busWrite a v s).mem

/-- Equal memories are equal data: two memories in canonical form that read the same everywhere are the same list
(assumption log 1). -/
def Obligations.CanonicalMemoryIsExtensional : Prop :=
  ∀ m m' : Memory, m.wf = true → m'.wf = true → (∀ a : Addr, m.read a = m'.read a) → m = m'

/-- 10_state.md R27, whole: `SP` is decremented first, the byte lands at `0x0100 +` the new `SP`, which lies in the stack page
for every `SP`, and nothing else changes. -/
def Obligations.PushDecrementsThenWrites : Prop :=
  ∀ (v : Byte) (s : State),
    (push v s).sp = s.sp - 1 ∧
    (push v s).mem.read (stackAt (push v s).sp) = v ∧
    (∀ b : Addr, b ≠ stackAt (push v s).sp → (push v s).mem.read b = s.mem.read b) ∧
    (stackAt (push v s).sp).toNat = 0x0100 + (push v s).sp.toNat ∧
    { push v s with sp := s.sp, mem := s.mem } = s

/-- 10_state.md R28, the operation: the byte is read at the old `SP`, then `SP` is incremented; nothing else changes. -/
def Obligations.PullReadsThenIncrements : Prop :=
  ∀ s : State, (pull s).1 = s.mem.read (stackAt s.sp) ∧ (pull s).2 = { s with sp := s.sp + 1 }

/-- A pull after a push returns the byte and restores `SP`, for every `SP` (an inference of 10_state.md R28). -/
def Obligations.PullAfterPushRestores : Prop :=
  ∀ (v : Byte) (s : State), (pull (push v s)).1 = v ∧ (pull (push v s)).2 = { push v s with sp := s.sp }

/-- 10_state.md R30 and R31, whole: each bit of `Compose()`, each flag of `Apply(v)`, and the source's round trip. -/
def Obligations.StatusByteBits : Prop :=
  (∀ f : Flags,
    (compose f).getLsbD 0 = f.c ∧ (compose f).getLsbD 1 = f.z ∧ (compose f).getLsbD 2 = f.i ∧ (compose f).getLsbD 3 = f.d ∧
    (compose f).getLsbD 4 = f.b ∧ (compose f).getLsbD 5 = true ∧ (compose f).getLsbD 6 = f.v ∧ (compose f).getLsbD 7 = f.n) ∧
  (∀ v : Byte, applyStatus v =
    { c := v.getLsbD 0, z := v.getLsbD 1, i := v.getLsbD 2, d := v.getLsbD 3
      b := v.getLsbD 4, u := v.getLsbD 5, v := v.getLsbD 6, n := v.getLsbD 7 }) ∧
  (∀ v : Byte, compose (applyStatus v) = v ||| 0x20)

/-! ## Encoding -/

/-- Decode and encode agree, first direction: the bytes of every well-formed instruction, followed by any bytes, decode to it
and leave those bytes (30_encoding.md, opcode map of R85). -/
def Obligations.DecodeOfEncode : Prop :=
  ∀ (i : Instr) (rest : List Byte), i.wf = true → decode (encode i ++ rest) = .ok (i, rest)

/-- Decode and encode agree, second direction: what any bytes decode to is well-formed, and its encoding with the bytes left
over is those bytes: each word has one meaning. -/
def Obligations.EncodeOfDecode : Prop :=
  ∀ (bytes : List Byte) (i : Instr) (rest : List Byte),
    decode bytes = .ok (i, rest) → i.wf = true ∧ encode i ++ rest = bytes

/-- Decoding is total on opcode bytes: three bytes always begin an instruction, whose length is told by the opcode byte, and
the undefined bytes begin the undefined instruction (30_encoding.md R83, R87; undefined length 1 is decision D5,
assumption log 5). -/
def Obligations.EveryOpcodeByteDecodes : Prop :=
  (∀ op b1 b2 : Byte, ∃ i rest, decode [op, b1, b2] = .ok (i, rest) ∧
    i.length = opcodeLength op ∧ rest.length + i.length = 3 ∧
    decode [op, 0, 0] = .ok (instrOfBytes op 0 0, List.replicate rest.length 0)) ∧
  (∀ op b1 b2 : Byte, op ∈ undefinedOpcodes → decode [op, b1, b2] = .ok (.undef op, [b1, b2])) ∧
  (∀ op b1 b2 : Byte, op ∉ undefinedOpcodes → ∀ x, instrOfBytes op b1 b2 ≠ .undef x)

/-- The opcode map is unambiguous and has the counts the spec gives: 151 rows, no opcode byte and no mnemonic with mode twice,
the 105 undefined bytes exactly the others, 23 opcodes that pay the page-crossing cycle. -/
def Obligations.OpcodeMapUnambiguous : Prop :=
  dispatchTable.length = 151 ∧
  (dispatchTable.map DispatchRow.opcode).Nodup ∧
  (dispatchTable.map fun r => (r.mnemonic, r.mode)).Nodup ∧
  undefinedOpcodes.length = 105 ∧ undefinedOpcodes.Nodup ∧
  (∀ r ∈ dispatchTable, r.opcode ∉ undefinedOpcodes) ∧
  ((dispatchTable.filter DispatchRow.pageCrossExtra).map DispatchRow.opcode).Perm
    [0xBD, 0xB9, 0xB1, 0x3D, 0x39, 0x31, 0x1D, 0x19, 0x11, 0x5D, 0x59, 0x51, 0x7D, 0x79, 0x71, 0xFD, 0xF9, 0xF1,
      0xDD, 0xD9, 0xD1, 0xBE, 0xBC]

/-- A few words of each family, written out from the opcode map, decode to the instructions they stand for. The first four
are the source's own bytes `A9 05 85 10 A5 10 69 03`. -/
def Obligations.KnownWordsDecode : Prop :=
  decode [0xA9, 0x05, 0x85] = .ok (.lda (.imm 0x05), [0x85]) ∧
  decode [0x85, 0x10] = .ok (.sta (.zp 0x10), []) ∧
  decode [0xA5, 0x10] = .ok (.lda (.zp 0x10), []) ∧
  decode [0x69, 0x03] = .ok (.adc (.imm 0x03), []) ∧
  decode [0xB6, 0xF0] = .ok (.ldx (.zpy 0xF0), []) ∧
  decode [0x91, 0x62] = .ok (.sta (.indy 0x62), []) ∧
  decode [0xBA] = .ok (.tsx, []) ∧
  decode [0x21, 0x44] = .ok (.and (.indx 0x44), []) ∧
  decode [0x6A] = .ok (.ror .acc, []) ∧
  decode [0xFE, 0xF0, 0x12] = .ok (.inc (.absx 0x12F0), []) ∧
  decode [0x6C, 0xFF, 0x10] = .ok (.jmp (.ind 0x10FF), []) ∧
  decode [0x20, 0x34, 0x12] = .ok (.jsr 0x1234, []) ∧
  decode [0xD0, 0xFB] = .ok (.bne 0xFB, []) ∧
  decode [0x00, 0xFF] = .ok (.brk, [0xFF]) ∧
  decode [0x02, 0xEA] = .ok (.undef 0x02, [0xEA])

/-! ## The step -/

/-- A step with no service due runs the decoded instruction: when the bytes at `PC` decode to `i`, `step` is `exec i` on the
state with `PC` moved past the bytes of `i` modulo 65536 (30_encoding.md R80, R82). The step is the one at the default
parameters; at any `DISPATCH`, `UNDEF_LEN` of at least 1 and `UNDEF_CYCLES`, a step with no service due executes the entry
that the table and the bytes at `PC` give, with `PC` past the entry's length (00_scope.md R7, 10_state.md R36). Executing
an entry completes exactly when its form gives its mnemonic's rule what it names, and is refused otherwise (assumption
log 32). -/
def Obligations.StepRunsDecodedInstruction : Prop :=
  (∀ (s : State) (i : Instr) (rest : List Byte),
    s.nmiPending = false → (s.irqPending = true → s.flags.i = true) →
    decode [s.mem.read s.pc, s.mem.read (s.pc + 1), s.mem.read (s.pc + 2)] = .ok (i, rest) →
    step s = exec i { s with pc := s.pc + BitVec.ofNat 16 i.length }) ∧
  (∀ s : State, step s = stepWith Params.default s) ∧
  (∀ (p : Params) (s : State), 1 ≤ p.undefLen → s.nmiPending = false → (s.irqPending = true → s.flags.i = true) →
    stepWith p s =
      executeEntry p (p.decoded (s.mem.read s.pc) (s.mem.read (s.pc + 1)) (s.mem.read (s.pc + 2)))
        { s with pc := s.pc + BitVec.ofNat 16 (p.opcodeLength (s.mem.read s.pc)) }) ∧
  (∀ (p : Params) (d : Decoded) (s : State),
    (d.row.mnemonic.admits d.operand.mode = true → ∃ t, executeEntry p d s = .next t) ∧
    (d.row.mnemonic.admits d.operand.mode = false → executeEntry p d s = .refused .noSuchForm))

/-- The host's placement of a table word: the next step runs exactly the instruction it decodes to, on a state that is the
given one but for the bytes stored and the services held back (the model's loader, assumption log 2). -/
def Obligations.PlacedWordIsExecuted : Prop :=
  ∀ (s : State) (nbits w : Nat) (i : Instr), decodeTableWord nbits w = some i →
    step (s.withFetchWord nbits w) =
      exec i { s with
        pc := s.pc + BitVec.ofNat 16 i.length
        nmiPending := false
        irqPending := s.irqPending && s.flags.i
        mem := ((s.mem.write s.pc (BitVec.ofNat 8 (w % 2 ^ nbits))).write (s.pc + 1) (BitVec.ofNat 8 (w % 2 ^ nbits / 256))).write
          (s.pc + 2) (BitVec.ofNat 8 (w % 2 ^ nbits / 65536)) }

/-- 60_exceptions.md R225, whole: the NMI service, chosen whenever the latch is set, whatever `I` and the IRQ latch are; the
pushed byte; the latch cleared; the stored `B` not written. -/
def Obligations.NmiServiceEntersItsHandler : Prop :=
  (∀ s : State, s.nmiPending = true → poll s = .serviceNmi) ∧
  (∀ s : State, serviceNMI s = { s with
    sp := s.sp - 3
    mem := trapMemory s.pc (compose s.flags &&& 0xEF) s
    flags := { s.flags with i := true }
    pc := word16 ((trapMemory s.pc (compose s.flags &&& 0xEF) s).read 0xFFFB)
      ((trapMemory s.pc (compose s.flags &&& 0xEF) s).read 0xFFFA)
    nmiPending := false
    cycleCount := s.cycleCount + 7 }) ∧
  (∀ s : State, (compose s.flags &&& 0xEF).getLsbD 5 = true ∧ (compose s.flags &&& 0xEF).getLsbD 4 = false ∧
    (compose s.flags &&& 0xEF).getLsbD 2 = s.flags.i)

/-- A service takes the place of the instruction in its step: the NMI service, and where no NMI is pending and `I` is 0 the IRQ
service (60_exceptions.md R223, R226). That a service is a step of its own is the spec's own decision D13 (assumption
log 12); that the IRQ service sets `I` is its decision D7 (assumption log 8). -/
def Obligations.StepServicesInterrupts : Prop :=
  (∀ s : State, s.nmiPending = true → step s = .next (serviceNMI s)) ∧
  (∀ s : State, s.nmiPending = false → s.irqPending = true → s.flags.i = false →
    step s = .next { s with
      sp := s.sp - 3
      mem := trapMemory s.pc (compose s.flags &&& 0xEF) s
      flags := { s.flags with i := true }
      pc := word16 ((trapMemory s.pc (compose s.flags &&& 0xEF) s).read 0xFFFF)
        ((trapMemory s.pc (compose s.flags &&& 0xEF) s).read 0xFFFE)
      cycleCount := s.cycleCount + 7 } ∧
    (compose s.flags &&& 0xEF).getLsbD 4 = false ∧ (compose s.flags &&& 0xEF).getLsbD 2 = false)

/-- Every step completes and adds between 2 and 7 to `cycle_count` (inferences of 60_exceptions.md R241, 10_state.md R32 and
70_reset_and_hazards.md R270; the counts are decision D6, assumption log 4). With another `DISPATCH`, `UNDEF_LEN` and
`UNDEF_CYCLES` every step completes too, where in every row the form gives the mnemonic's rule what it names and `UNDEF_LEN`
is at least 1 (00_scope.md R7; `Params.wf`, assumption log 32). -/
def Obligations.EveryStepCompletes : Prop :=
  (∀ s : State, ∃ t, step s = .next t ∧ s.cycleCount + 2 ≤ t.cycleCount ∧ t.cycleCount ≤ s.cycleCount + 7 ∧
    t.cycleCount = s.cycleCount + stepCycles s) ∧
  (∀ (p : Params) (s : State), p.wf = true → ∃ t, stepWith p s = .next t)

/-- The invariant every step keeps: memory stays in its canonical form (assumption log 1). -/
def Obligations.StepKeepsMemoryCanonical : Prop :=
  ∀ s t : State, s.Inv → step s = .next t → t.Inv

/-- Every run of host moves from a state in canonical form completes, stays in canonical form and never lowers
`cycle_count` (10_state.md R32, 60_exceptions.md R240, R241). The canonical form is the model's choice (assumption log 1). -/
def Obligations.HostRunsAreSafe : Prop :=
  ∀ (moves : List HostMove) (s : State), s.Inv → SafeRun moves s

/-- The bus account of a step agrees with the step: played on the memory, every read of `stepBus` returns the byte it names
and the writes give the memory of the next state. The order and number of accesses are decision D16
(assumption log 15). -/
def Obligations.BusTransactionsReplayStep : Prop :=
  ∀ s t : State, step s = .next t → replay (stepBus s) s.mem = some t.mem

/-! ## The resolver -/

/-- 40_addressing_modes.md R101, R102, R103, R105 and R114, and the computation of R104: zero-page sums modulo 256, absolute
sums modulo 65536, and page crossing as a change of the high byte, computed by the absolute indexed modes and (Indirect),Y
only. -/
def Obligations.DirectAndIndexedAddresses : Prop :=
  (∀ (b : Byte) (s : State), ∃ ea, resolve (.zp b) s = .memory ea ∧ ea.toNat = b.toNat) ∧
  (∀ (b : Byte) (s : State), ∃ ea, resolve (.zpx b) s = .memory ea ∧ ea.toNat = (b.toNat + s.x.toNat) % 256) ∧
  (∀ (b : Byte) (s : State), ∃ ea, resolve (.zpy b) s = .memory ea ∧ ea.toNat = (b.toNat + s.y.toNat) % 256) ∧
  (∀ (lo hi : Byte) (s : State), ∃ ea, resolve (operandOf .abs lo hi) s = .memory ea ∧ ea.toNat = hi.toNat * 256 + lo.toNat) ∧
  (∀ (base : Addr) (s : State), ∃ ea, resolve (.absx base) s = .memory ea ∧
    ea.toNat = (base.toNat + s.x.toNat) % 65536 ∧ (crossed (.absx base) s = true ↔ ea.toNat / 256 ≠ base.toNat / 256)) ∧
  (∀ (base : Addr) (s : State), ∃ ea, resolve (.absy base) s = .memory ea ∧
    ea.toNat = (base.toNat + s.y.toNat) % 65536 ∧ (crossed (.absy base) s = true ↔ ea.toNat / 256 ≠ base.toNat / 256)) ∧
  (∀ (o : Operand) (s : State), o.mode ∉ [.absx, .absy, .indy] → crossed o s = false) ∧
  (∀ op : Byte, (dispatch op).mode = .zpy → (dispatch op).mnemonic ∈ [.ldx, .stx]) ∧
  Mode.operandBytes .zp = 1 ∧ Mode.operandBytes .zpx = 1 ∧ Mode.operandBytes .zpy = 1 ∧
  Mode.operandBytes .abs = 2 ∧ Mode.operandBytes .absx = 2 ∧ Mode.operandBytes .absy = 2

/-- Crossing a page is the carry out of the low byte (90_conflicts.md C12, an inference of 40_addressing_modes.md R104). -/
def Obligations.CrossingIsLowByteCarry : Prop :=
  ∀ (base : Addr) (index : Byte),
    otherPage base (indexed base index) = true ↔ 255 < (loByte base).toNat + index.toNat

/-- 40_addressing_modes.md R106, whole: the Indirect mode with its page-wrap erratum. -/
def Obligations.IndirectPageWrapErratum : Prop :=
  (∀ (lo hi : Byte) (s : State), ∃ hiAddr : Addr,
    resolve (operandOf .ind lo hi) s = .memory (word16 (s.mem.read hiAddr) (s.mem.read (word16 hi lo))) ∧
    hiAddr = (word16 hi lo &&& 0xFF00) ||| ((word16 hi lo + 1) &&& 0x00FF) ∧
    (lo ≠ 0xFF → hiAddr = word16 hi lo + 1) ∧
    (lo = 0xFF → hiAddr = word16 hi 0x00)) ∧
  (∀ s : State, resolve (.ind 0x10FF) s = .memory (word16 (s.mem.read 0x1000) (s.mem.read 0x10FF))) ∧
  (∀ (ptr : Addr) (s : State), crossed (.ind ptr) s = false) ∧ Mode.operandBytes .ind = 2 ∧
  (∀ op : Byte, (dispatch op).mode = .ind ↔ op = 0x6C) ∧ (dispatch 0x6C).mnemonic = .jmp

/-- 40_addressing_modes.md R107, whole: (Indirect,X) reads both pointer bytes inside the zero page. -/
def Obligations.IndexedIndirectStaysInZeroPage : Prop :=
  ∀ (b : Byte) (s : State), ∃ lo hi : Addr,
    lo.toNat = (b.toNat + s.x.toNat) % 256 ∧ hi.toNat = (b.toNat + s.x.toNat + 1) % 256 ∧
    resolve (.indx b) s = .memory (word16 (s.mem.read hi) (s.mem.read lo)) ∧
    crossed (.indx b) s = false ∧ Mode.operandBytes .indx = 1

/-- (Indirect),Y (40_addressing_modes.md R108). That the second pointer byte wraps inside the zero page is the spec's own
decision D12 (assumption log 11). -/
def Obligations.IndirectIndexedAddsYAfterwards : Prop :=
  ∀ (b : Byte) (s : State), ∃ lo hi base ea : Addr,
    lo.toNat = b.toNat ∧ hi.toNat = (b.toNat + 1) % 256 ∧
    base = word16 (s.mem.read hi) (s.mem.read lo) ∧ ea.toNat = (base.toNat + s.y.toNat) % 65536 ∧
    resolve (.indy b) s = .memory ea ∧ (crossed (.indy b) s = true ↔ hiByte ea ≠ hiByte base)

/-- 40_addressing_modes.md R112: the branch target is `PC_next` plus the signed offset, modulo 65536. -/
def Obligations.RelativeTargetIsSigned : Prop :=
  ∀ (offset : Byte) (s : State), ∃ target : Addr,
    resolve (.rel offset) s = .target target ∧
    (target.toNat : Int) = ((s.pc.toNat : Int) + (if offset.toNat < 128 then (offset.toNat : Int) else offset.toNat - 256)) % 65536 ∧
    crossed (.rel offset) s = false ∧ Mode.operandBytes .rel = 1

/-- At a step, the immediate operand is the byte at its effective address: 40_addressing_modes.md R109 as the model reads it
(assumption log 22). -/
def Obligations.ImmediateIsTheByteAtItsAddress : Prop :=
  ∀ (s : State) (i : Instr) (v : Byte), (fetchInstr s).1 = i → i.operand = .imm v →
    resolve (.imm v) (fetchInstr s).2 = .immediate (s.pc + 1) v ∧ s.mem.read (s.pc + 1) = v

/-! ## Arithmetic -/

/-- 45_arithmetic_compare.md R164, the definition: sum, carry and overflow of the shared adder, and the equal form of the
overflow. -/
def Obligations.AddCoreFormulas : Prop :=
  ∀ (a m : Byte) (c : Bool),
    (addCore a m c).r.toNat = (a.toNat + m.toNat + c.toNat) % 256 ∧
    ((addCore a m c).cOut = true ↔ 255 < a.toNat + m.toNat + c.toNat) ∧
    ((addCore a m c).vOut = true ↔ a.getLsbD 7 = m.getLsbD 7 ∧ (addCore a m c).r.getLsbD 7 ≠ a.getLsbD 7) ∧
    ((addCore a m c).vOut = true ↔ (a ^^^ (addCore a m c).r) &&& (m ^^^ (addCore a m c).r) &&& 0x80 ≠ 0)

/-- The overflow flag of the adder is set exactly when the true signed sum lies outside -128 to 127 (an inference of
45_arithmetic_compare.md R164). -/
def Obligations.OverflowIsSignedOverflow : Prop :=
  ∀ (a m : Byte) (c : Bool),
    (addCore a m c).vOut = true ↔
      (a.toInt + m.toInt + (c.toNat : Int) < -128 ∨ 127 < a.toInt + m.toInt + (c.toNat : Int))

/-- ADC and SBC in every form (45_arithmetic_compare.md R160, R161): the integer sum with the operand, for SBC with its ones'
complement; `D` is not read. -/
def Obligations.AddAndSubtractResults : Prop :=
  AddsToA .adc (fun m => m) ∧ AddsToA .sbc (fun m => m ^^^ 0xFF)

/-- SBC is subtraction with borrow (an inference of 45_arithmetic_compare.md R161): the result is `A - m - (1 - C)` and the new
`C` says that no borrow was needed. -/
def Obligations.SubtractIsWithBorrow : Prop :=
  ∀ (o : Operand) (s t : State), exec (.sbc o) s = .next t →
    t.a = s.a - operandValue o s - (if s.flags.c then 0 else 1) ∧
    (t.flags.c = true ↔ (operandValue o s).toNat + (if s.flags.c then 0 else 1) ≤ s.a.toNat)

/-- CMP, CPX and CPY in every form (45_arithmetic_compare.md R162, R165, R166). -/
def Obligations.CompareResults : Prop :=
  ComparesRegister .cmp State.a ∧ ComparesRegister .cpx State.x ∧ ComparesRegister .cpy State.y

/-- LDA followed by CMP of the same operand gives `Z = 1, C = 1, N = 0` (95_test_vectors.md S2, the source's property), in every
form: no form of LDA changes what its operand resolves to. -/
def Obligations.CompareAfterLoadIsEqual : Prop :=
  ∀ (o : Operand) (s t : State), exec (.lda o) s = .next t →
    ∃ u, exec (.cmp o) t = .next u ∧ u.flags.z = true ∧ u.flags.c = true ∧ u.flags.n = false ∧ u.a = operandValue o s

/-! ## Instruction results -/

/-- LDA, LDX, LDY in every form (41_load_store.md R120 to R122). -/
def Obligations.LoadResults : Prop :=
  ∀ (o : Operand) (s : State),
    ((Instr.lda o).wf = true → exec (.lda o) s = .next { s with
      a := operandValue o s, flags := znOf (operandValue o s) s.flags, cycleCount := cyclesAfter (.lda o) s }) ∧
    ((Instr.ldx o).wf = true → exec (.ldx o) s = .next { s with
      x := operandValue o s, flags := znOf (operandValue o s) s.flags, cycleCount := cyclesAfter (.ldx o) s }) ∧
    ((Instr.ldy o).wf = true → exec (.ldy o) s = .next { s with
      y := operandValue o s, flags := znOf (operandValue o s) s.flags, cycleCount := cyclesAfter (.ldy o) s })

/-- STA, STX, STY in every form (41_load_store.md R123 to R125): the byte goes to the effective address, no flag changes, and no
page-crossing cycle is paid. -/
def Obligations.StoreResults : Prop :=
  ∀ (o : Operand) (s : State),
    ((Instr.sta o).wf = true → ∃ ea, storeAddr o s = some ea ∧ exec (.sta o) s = .next { s with
      mem := s.mem.write ea s.a, cycleCount := s.cycleCount + baseCycles (.sta o) }) ∧
    ((Instr.stx o).wf = true → ∃ ea, storeAddr o s = some ea ∧ exec (.stx o) s = .next { s with
      mem := s.mem.write ea s.x, cycleCount := s.cycleCount + baseCycles (.stx o) }) ∧
    ((Instr.sty o).wf = true → ∃ ea, storeAddr o s = some ea ∧ exec (.sty o) s = .next { s with
      mem := s.mem.write ea s.y, cycleCount := s.cycleCount + baseCycles (.sty o) })

/-- What an operand's value is, in each form that has one: `A`, the immediate byte, or the byte at the effective address
(40_addressing_modes.md R100, R109, R111; assumption log 22). -/
def Obligations.OperandValueByForm : Prop :=
  ∀ (o : Operand) (s : State),
    (o = .acc → operandValue o s = s.a) ∧ (∀ v, o = .imm v → operandValue o s = v) ∧
    (∀ ea, storeAddr o s = some ea → resolve o s = .memory ea ∧ operandValue o s = s.mem.read ea) ∧
    (o.mode ∉ [.imp, .acc, .imm, .rel] → ∃ ea, storeAddr o s = some ea)

/-- PHA, PHP, PLA, PLP (42_transfer_stack.md R136 to R139). PHP pushes the stored `B` (decision D10, assumption log 9). -/
def Obligations.StackInstructionResults : Prop :=
  ∀ s : State,
    exec .pha s = .next { s with
      sp := s.sp - 1, mem := s.mem.write (stackAt (s.sp - 1)) s.a, cycleCount := s.cycleCount + 3 } ∧
    exec .php s = .next { s with
      sp := s.sp - 1, mem := s.mem.write (stackAt (s.sp - 1)) (compose s.flags), cycleCount := s.cycleCount + 3 } ∧
    exec .pla s = .next { s with
      sp := s.sp + 1, a := s.mem.read (stackAt s.sp), flags := znOf (s.mem.read (stackAt s.sp)) s.flags
      cycleCount := s.cycleCount + 4 } ∧
    exec .plp s = .next { s with
      sp := s.sp + 1, flags := applyStatus (s.mem.read (stackAt s.sp)), cycleCount := s.cycleCount + 4 }

/-- AND, ORA, EOR and BIT in every form (43_logical_bit.md R145 to R148). -/
def Obligations.LogicalResults : Prop :=
  ∀ (o : Operand) (s : State),
    ((Instr.and o).wf = true → exec (.and o) s = .next { s with
      a := s.a &&& operandValue o s, flags := znOf (s.a &&& operandValue o s) s.flags, cycleCount := cyclesAfter (.and o) s }) ∧
    ((Instr.ora o).wf = true → exec (.ora o) s = .next { s with
      a := s.a ||| operandValue o s, flags := znOf (s.a ||| operandValue o s) s.flags, cycleCount := cyclesAfter (.ora o) s }) ∧
    ((Instr.eor o).wf = true → exec (.eor o) s = .next { s with
      a := s.a ^^^ operandValue o s, flags := znOf (s.a ^^^ operandValue o s) s.flags, cycleCount := cyclesAfter (.eor o) s }) ∧
    ((Instr.bit o).wf = true → exec (.bit o) s = .next { s with
      flags := { s.flags with
        z := s.a &&& operandValue o s == 0, n := (operandValue o s).getLsbD 7, v := (operandValue o s).getLsbD 6 }
      cycleCount := cyclesAfter (.bit o) s })

/-- ASL, LSR, ROL and ROR on `A` and on memory (44_shift_rotate.md R153 to R156). -/
def Obligations.ShiftResults : Prop :=
  ShiftsOperand .asl (fun v _ => v <<< 1) (fun v => v.getLsbD 7) ∧
  ShiftsOperand .lsr (fun v _ => v >>> 1) (fun v => v.getLsbD 0) ∧
  ShiftsOperand .rol (fun v c => (v <<< 1) ||| (if c then 0x01 else 0x00)) (fun v => v.getLsbD 7) ∧
  ShiftsOperand .ror (fun v c => (v >>> 1) ||| (if c then 0x80 else 0x00)) (fun v => v.getLsbD 0)

/-- INC and DEC in every form (46_incdec.md R170, R171): one read and one write of the effective address, `C` and `V` untouched,
no page-crossing cycle. -/
def Obligations.IncrementMemoryResults : Prop :=
  ∀ (o : Operand) (s : State),
    ((Instr.inc o).wf = true → ∃ ea, storeAddr o s = some ea ∧ exec (.inc o) s = .next { s with
      mem := s.mem.write ea (s.mem.read ea + 1), flags := znOf (s.mem.read ea + 1) s.flags
      cycleCount := s.cycleCount + baseCycles (.inc o) }) ∧
    ((Instr.dec o).wf = true → ∃ ea, storeAddr o s = some ea ∧ exec (.dec o) s = .next { s with
      mem := s.mem.write ea (s.mem.read ea - 1), flags := znOf (s.mem.read ea - 1) s.flags
      cycleCount := s.cycleCount + baseCycles (.dec o) })

/-- Instructions between registers: TAX, TAY, TXA, TYA, TSX, TXS (42_transfer_stack.md R130 to R135), INX, INY, DEX, DEY
(46_incdec.md R172 to R175). -/
def Obligations.RegisterInstructionResults : Prop :=
  ∀ s : State,
    exec .tax s = .next { s with x := s.a, flags := znOf s.a s.flags, cycleCount := s.cycleCount + 2 } ∧
    exec .tay s = .next { s with y := s.a, flags := znOf s.a s.flags, cycleCount := s.cycleCount + 2 } ∧
    exec .txa s = .next { s with a := s.x, flags := znOf s.x s.flags, cycleCount := s.cycleCount + 2 } ∧
    exec .tya s = .next { s with a := s.y, flags := znOf s.y s.flags, cycleCount := s.cycleCount + 2 } ∧
    exec .tsx s = .next { s with x := s.sp, flags := znOf s.sp s.flags, cycleCount := s.cycleCount + 2 } ∧
    exec .txs s = .next { s with sp := s.x, cycleCount := s.cycleCount + 2 } ∧
    exec .inx s = .next { s with x := s.x + 1, flags := znOf (s.x + 1) s.flags, cycleCount := s.cycleCount + 2 } ∧
    exec .iny s = .next { s with y := s.y + 1, flags := znOf (s.y + 1) s.flags, cycleCount := s.cycleCount + 2 } ∧
    exec .dex s = .next { s with x := s.x - 1, flags := znOf (s.x - 1) s.flags, cycleCount := s.cycleCount + 2 } ∧
    exec .dey s = .next { s with y := s.y - 1, flags := znOf (s.y - 1) s.flags, cycleCount := s.cycleCount + 2 }

/-- JMP, JSR and RTS (47_jump_branch.md R180 to R182). JSR pushes `PC_next - 1`, high byte first (decision D14, assumption
log 13). -/
def Obligations.JumpResults : Prop :=
  (∀ (target : Addr) (s : State), exec (.jmp (.abs target)) s = .next { s with pc := target, cycleCount := s.cycleCount + 3 }) ∧
  (∀ (ptr : Addr) (s : State), exec (.jmp (.ind ptr)) s = .next { s with
    pc := word16 (s.mem.read (indirectHighAddr ptr)) (s.mem.read ptr), cycleCount := s.cycleCount + 5 }) ∧
  (∀ (target : Addr) (s : State), exec (.jsr target) s = .next { s with
    pc := target, sp := s.sp - 2
    mem := (s.mem.write (stackAt (s.sp - 1)) (hiByte (s.pc - 1))).write (stackAt (s.sp - 2)) (loByte (s.pc - 1))
    cycleCount := s.cycleCount + 6 }) ∧
  (∀ s : State, exec .rts s = .next { s with
    pc := word16 (s.mem.read (stackAt (s.sp + 1))) (s.mem.read (stackAt s.sp)) + 1, sp := s.sp + 2
    cycleCount := s.cycleCount + 6 })

/-- JSR then RTS returns to the instruction after the JSR with `SP` as before, for every target and every `SP` (an inference of
47_jump_branch.md R182 that extends the source's property). -/
def Obligations.SubroutineRoundTrip : Prop :=
  ∀ (target pc : Addr) (s t : State), exec (.jsr target) s = .next t →
    ∃ u, exec .rts { t with pc := pc } = .next u ∧ u.pc = s.pc ∧ u.sp = s.sp ∧ u.a = s.a ∧ u.x = s.x ∧ u.y = s.y ∧
      u.flags = s.flags

/-- The eight branches (47_jump_branch.md R183 to R191): taken to the signed target when the flag test holds, 2, 3 or 4 cycles,
no flag written. -/
def Obligations.BranchResults : Prop :=
  BranchesWhen .bcc (fun f => !f.c) ∧ BranchesWhen .bcs (fun f => f.c) ∧
  BranchesWhen .bne (fun f => !f.z) ∧ BranchesWhen .beq (fun f => f.z) ∧
  BranchesWhen .bpl (fun f => !f.n) ∧ BranchesWhen .bmi (fun f => f.n) ∧
  BranchesWhen .bvc (fun f => !f.v) ∧ BranchesWhen .bvs (fun f => f.v)

/-- CLC, CLD, CLI, CLV, SEC, SED, SEI, NOP and the undefined opcodes (48_flags_nop_system.md R200 to R207, R211; the undefined
opcodes' cost is decision D5, assumption log 5). -/
def Obligations.FlagInstructionResults : Prop :=
  ChangesFlags .clc (fun f => { f with c := false }) ∧ ChangesFlags .cld (fun f => { f with d := false }) ∧
  ChangesFlags .cli (fun f => { f with i := false }) ∧ ChangesFlags .clv (fun f => { f with v := false }) ∧
  ChangesFlags .sec (fun f => { f with c := true }) ∧ ChangesFlags .sed (fun f => { f with d := true }) ∧
  ChangesFlags .sei (fun f => { f with i := true }) ∧ ChangesFlags .nop (fun f => f) ∧
  (∀ op, op ∈ undefinedOpcodes → ChangesFlags (.undef op) (fun f => f))

/-- BRK (48_flags_nop_system.md R208): the trap entry from `PC_next + 1` with bit 4 of the pushed byte set; the stored `B` is not
written (decisions D10 and D14, assumption logs 9 and 13). -/
def Obligations.BreakEntersHandler : Prop :=
  ∀ s : State, exec .brk s = .next { s with
    sp := s.sp - 3
    mem := trapMemory (s.pc + 1) (compose s.flags ||| 0x10) s
    flags := { s.flags with i := true }
    pc := word16 ((trapMemory (s.pc + 1) (compose s.flags ||| 0x10) s).read 0xFFFF)
      ((trapMemory (s.pc + 1) (compose s.flags ||| 0x10) s).read 0xFFFE)
    cycleCount := s.cycleCount + 7 }

/-- RTI (48_flags_nop_system.md R209): all eight flags from the pulled byte, then `PC`, low byte first, with no adjustment. -/
def Obligations.ReturnFromInterruptResult : Prop :=
  ∀ s : State, exec .rti s = .next { s with
    sp := s.sp + 3
    flags := applyStatus (s.mem.read (stackAt s.sp))
    pc := word16 (s.mem.read (stackAt (s.sp + 2))) (s.mem.read (stackAt (s.sp + 1)))
    cycleCount := s.cycleCount + 6 }

/-- RTI undoes a service and a BRK: the interrupted `PC`, `SP` and flags come back, but for the stored `U`, which becomes 1, and
the stored `B`, which becomes 0 after a service and 1 after a BRK (48_flags_nop_system.md R209, 60_exceptions.md R225, R231;
decision D10, assumption log 9). The `PC` that comes back after a BRK is its `PC_next + 1` (R208; decision D14, assumption
log 13). -/
def Obligations.ReturnUndoesTrapEntry : Prop :=
  (∀ s t : State, poll s ≠ .executeInstruction → step s = .next t →
    ∃ u, exec .rti t = .next u ∧ u.pc = s.pc ∧ u.sp = s.sp ∧ u.flags = { s.flags with u := true, b := false } ∧
      u.a = s.a ∧ u.x = s.x ∧ u.y = s.y) ∧
  (∀ s t : State, exec .brk s = .next t →
    ∃ u, exec .rti t = .next u ∧ u.pc = s.pc + 1 ∧ u.sp = s.sp ∧ u.flags = { s.flags with u := true, b := true } ∧
      u.a = s.a ∧ u.x = s.x ∧ u.y = s.y)

/-- A term that is no instruction of the hardware is refused by its own name, and every instruction of the hardware completes
(the model's choice, assumption log 21). -/
def Obligations.OnlyIllFormedTermsAreRefused : Prop :=
  (∀ (i : Instr) (s : State), i.wf = false → exec i s = .refused .noSuchForm) ∧
  (∀ (i : Instr) (s : State), i.wf = true → ∃ t, exec i s = .next t)

/-! ## Frames and whole-machine rules -/

/-- Frame, memory: when an instruction completes, every byte outside the addresses it stores to reads as before; an instruction
that stores to none leaves all of memory as it was (20_memory.md R60, an inference of the spec). -/
def Obligations.MemoryFrame : Prop :=
  ∀ (i : Instr) (s t : State), exec i s = .next t →
    (∀ a : Addr, a ∉ storedTo i s → t.mem.read a = s.mem.read a) ∧ (storedTo i s = [] → t.mem = s.mem)

/-- Frame, registers: only the instructions the spec lists write `A`, `X`, `Y`, `SP` or `PC`; no instruction writes a latch
(10_state.md R21, R22, R24, R33, R34). -/
def Obligations.RegisterFrame : Prop :=
  ∀ (i : Instr) (s t : State), exec i s = .next t →
    (i.mnemonic ∉ [.lda, .txa, .tya, .pla, .and, .ora, .eor, .adc, .sbc] →
      ¬ (i.mnemonic ∈ [.asl, .lsr, .rol, .ror] ∧ i.operand = .acc) → t.a = s.a) ∧
    (i.mnemonic ∉ [.ldx, .tax, .tsx, .inx, .dex] → t.x = s.x) ∧
    (i.mnemonic ∉ [.ldy, .tay, .iny, .dey] → t.y = s.y) ∧
    (i.mnemonic ∉ [.txs, .pha, .php, .pla, .plp, .jsr, .rts, .brk, .rti] → t.sp = s.sp) ∧
    (i.mnemonic ∉ [.jmp, .jsr, .rts, .brk, .rti, .bcc, .bcs, .beq, .bne, .bmi, .bpl, .bvc, .bvs] → t.pc = s.pc) ∧
    t.nmiPending = s.nmiPending ∧ t.irqPending = s.irqPending

/-- Frame, flags: a flag changes only under an instruction the spec lists as writing it (10_state.md R26, an inference of the
spec). -/
def Obligations.FlagFrame : Prop :=
  ∀ (i : Instr) (s t : State), exec i s = .next t →
    (i.mnemonic ∉ [.adc, .sbc, .cmp, .cpx, .cpy, .asl, .lsr, .rol, .ror, .clc, .sec, .plp, .rti] → t.flags.c = s.flags.c) ∧
    (i.mnemonic ∉ [.lda, .ldx, .ldy, .tax, .tay, .txa, .tya, .tsx, .pla, .and, .ora, .eor, .bit, .asl, .lsr, .rol, .ror, .adc,
      .sbc, .cmp, .cpx, .cpy, .inc, .dec, .inx, .iny, .dex, .dey, .plp, .rti] →
      t.flags.z = s.flags.z ∧ t.flags.n = s.flags.n) ∧
    (i.mnemonic ∉ [.sei, .cli, .plp, .rti, .brk] → t.flags.i = s.flags.i) ∧
    (i.mnemonic ∉ [.sed, .cld, .plp, .rti] → t.flags.d = s.flags.d) ∧
    (i.mnemonic ∉ [.plp, .rti] → t.flags.b = s.flags.b ∧ t.flags.u = s.flags.u) ∧
    (i.mnemonic ∉ [.adc, .sbc, .bit, .clv, .plp, .rti] → t.flags.v = s.flags.v)

/-- The cycles of every instruction but a branch, by what it does with its operand and the operand's form: base count, and
one more for a page crossed by an instruction that only reads (70_reset_and_hazards.md R270, 40_addressing_modes.md R116; the
counts are decision D6, assumption log 4). A branch's cycles are in `BranchResults`. Under any charge (a base count and a
page-cross flag) an instruction, branches among them, does what it does under a charge of nothing, and counts the base
and, with the flag set and the page crossed, one more. -/
def Obligations.InstructionCycles : Prop :=
  (∀ (i : Instr) (s t : State), exec i s = .next t → i.mode ≠ .rel →
    t.cycleCount = s.cycleCount + cyclesByClass i + (if ReadsOnly i.mnemonic ∧ crossed i.operand s = true then 1 else 0)) ∧
  (∀ (c : Charge) (i : Instr) (s : State),
    execCharged (some c) i s =
      mapNext (addCycles (c.base + (if c.pageCross = true ∧ crossed i.operand s = true then 1 else 0)))
        (execCharged (some ⟨0, false⟩) i s))

/-- `D` is stored and toggled and read only by `Compose()` (10_state.md R42): every instruction that neither writes `D` nor
pushes the status byte, ADC and SBC among them, does the same whatever `D` is, and where the status byte is pushed nothing
but memory can depend on it. That SED sets and CLD clears it is the expansion of the mnemonics (48_flags_nop_system.md
R201, R205; decision D19, assumption log 17); bit 3 under PLP and RTI is 10_state.md R31, its reset value
70_reset_and_hazards.md R260. -/
def Obligations.DecimalFlagHasNoEffect : Prop :=
  (∀ (i : Instr) (s : State) (x : Bool), i.mnemonic ∉ [.php, .brk, .sed, .cld, .plp, .rti] →
    exec i (withD x s) = mapNext (withD x) (exec i s)) ∧
  (∀ (i : Instr) (s : State) (x : Bool), i.mnemonic ∈ [.sed, .cld, .plp, .rti] → exec i (withD x s) = exec i s) ∧
  (∀ (i : Instr) (s t u : State) (x : Bool), i.mnemonic ∈ [.php, .brk] → exec i s = .next t → exec i (withD x s) = .next u →
    { u with mem := t.mem } = withD x t) ∧
  (∀ (s : State) (x : Bool), { serviceNMI (withD x s) with mem := (serviceNMI s).mem } = withD x (serviceNMI s)) ∧
  (∀ (s : State) (x : Bool), { serviceIRQ (withD x s) with mem := (serviceIRQ s).mem } = withD x (serviceIRQ s)) ∧
  (∀ s : State, ∃ t, exec .sed s = .next t ∧ t.flags.d = true) ∧ (∀ s : State, ∃ t, exec .cld s = .next t ∧ t.flags.d = false) ∧
  (∀ v : Byte, (applyStatus v).d = v.getLsbD 3) ∧ (∀ s : State, (hostReset s).flags.d = false)

/-- The stored `B` and `U` gate nothing: no instruction but PHP, PLP and RTI reads or writes `B` (BRK pushes bit 4 as 1 whatever
`B` is), and none but PLP and RTI touches `U` (10_state.md R40, R41; decisions D10 and D11, assumption logs 9 and 10). -/
def Obligations.StoredBreakAndUnusedGateNothing : Prop :=
  (∀ (i : Instr) (s : State) (x : Bool), i.mnemonic ∉ [.php, .plp, .rti] →
    exec i (withB x s) = mapNext (withB x) (exec i s)) ∧
  (∀ (i : Instr) (s : State) (x : Bool), i.mnemonic ∉ [.plp, .rti] →
    exec i (withU x s) = mapNext (withU x) (exec i s))

/-- No step reads `cycle_count`: a step from a state that has counted `k` more cycles does the same and has counted `k` more
after it (10_state.md R32, 70_reset_and_hazards.md R270). -/
def Obligations.CycleCountIsNeverRead : Prop :=
  ∀ (s : State) (k : Nat), step (addCycles k s) = mapNext (addCycles k) (step s)
end

