-- ==== Sys2Proof/Laws/Decode.lean ====
section
/-! SUPPORT. The laws of the encoding: byte order, the two directions of the opcode map (30_encoding.md R85, R87, R92),
and what the decoder answers on the bytes of a table row. -/

namespace Sys2Proof

/-! ## Byte order -/

theorem word16_toNat (hi lo : Byte) : (word16 hi lo).toNat = hi.toNat * 256 + lo.toNat := by
  have h : lo.toNat < 2 ^ 8 := lo.isLt
  rw [word16, BitVec.toNat_append, ← Nat.shiftLeft_add_eq_or_of_lt h, Nat.shiftLeft_eq]

theorem loByte_toNat (a : Addr) : (loByte a).toNat = a.toNat % 256 := by
  simp [loByte, BitVec.extractLsb'_toNat]

theorem hiByte_toNat (a : Addr) : (hiByte a).toNat = a.toNat / 256 := by
  have h := a.isLt
  simp only [hiByte, BitVec.extractLsb'_toNat, Nat.shiftRight_eq_div_pow]
  omega

@[simp] theorem loByte_word16 (hi lo : Byte) : loByte (word16 hi lo) = lo := by
  apply BitVec.eq_of_toNat_eq
  have := lo.isLt
  rw [loByte_toNat, word16_toNat]
  omega

@[simp] theorem hiByte_word16 (hi lo : Byte) : hiByte (word16 hi lo) = hi := by
  apply BitVec.eq_of_toNat_eq
  have := lo.isLt
  rw [hiByte_toNat, word16_toNat]
  omega

@[simp] theorem word16_hiByte_loByte (a : Addr) : word16 (hiByte a) (loByte a) = a := by
  apply BitVec.eq_of_toNat_eq
  rw [word16_toNat, hiByte_toNat, loByte_toNat]
  omega

/-! ## The default parameters

Each definition at the default parameters, written out once. -/

theorem dispatch_eq (op : Byte) : dispatch op = (dispatchTable.find? fun r => r.opcode == op).getD (undefRow op) := rfl

theorem lengthOf_eq (m : Mnemonic) (mode : Mode) :
    lengthOf m mode = if m = .undef then Config.undefLen else 1 + mode.operandBytes := rfl

theorem opcodeLength_eq (op : Byte) : opcodeLength op = lengthOf (dispatch op).mnemonic (dispatch op).mode := rfl

theorem instrOfBytes_eq (op b1 b2 : Byte) :
    instrOfBytes op b1 b2 = assemble (dispatch op).mnemonic (dispatch op).mode op b1 b2 := rfl

theorem decode_nil_eq : decode [] = .error .noOpcode := rfl

theorem decode_cons_eq (op : Byte) (rest : List Byte) :
    decode (op :: rest) = if rest.length < opcodeLength op - 1 then .error (.truncated op)
      else .ok (instrOfBytes op (rest.getD 0 0) (rest.getD 1 0), rest.drop (opcodeLength op - 1)) := rfl

/-! ## Any parameters -/

/-- An operand byte past an entry's length takes no part in it. -/
theorem Params.decoded_congr {p : Params} {op b1 b2 c1 c2 : Byte} (h1 : 2 ≤ p.opcodeLength op → b1 = c1)
    (h2 : 3 ≤ p.opcodeLength op → b2 = c2) : p.decoded op b1 b2 = p.decoded op c1 c2 := by
  unfold Params.decoded
  by_cases hu : (p.row op).mnemonic = .undef
  · simp [hu]
  · simp only [Params.opcodeLength, Params.lengthOf, if_neg hu] at h1 h2
    simp only [if_neg hu, Decoded.mk.injEq, true_and]
    generalize (p.row op).mode = mode at h1 h2
    cases mode <;> simp [Mode.operandBytes] at h1 h2 <;> simp_all [operandOf]

/-- The default parameters are ones a machine can be built with. -/
theorem Params.default_wf : Params.default.wf = true := by decide +kernel

/-- The entry of a byte is a row of the table or the undefined entry. -/
theorem Params.row_mem_or_undef (p : Params) (op : Byte) : p.row op ∈ p.table ∨ p.row op = p.undefRow op := by
  unfold Params.row
  cases h : p.table.find? fun r => r.opcode == op with
  | none => exact .inr rfl
  | some r => exact .inl (List.mem_of_find?_eq_some h)

/-- Parameters a machine can be built with give every opcode byte a form that has what its mnemonic's
rule names. -/
theorem Params.admits_of_wf {p : Params} (h : p.wf = true) (op : Byte) :
    (p.row op).mnemonic.admits (p.row op).mode = true := by
  simp only [Params.wf, Bool.and_eq_true, List.all_eq_true] at h
  obtain hm | hu := p.row_mem_or_undef op
  · exact h.1 _ hm
  · rw [hu]; rfl

theorem Params.undefLen_pos {p : Params} (h : p.wf = true) : 1 ≤ p.undefLen := by
  simp only [Params.wf, Bool.and_eq_true, decide_eq_true_eq] at h
  exact h.2

/-- An instruction has at least its opcode byte, and at least its mode's operand bytes more when it is not undefined. -/
theorem Params.opcodeLength_pos {p : Params} (h : 1 ≤ p.undefLen) (op : Byte) : 1 ≤ p.opcodeLength op := by
  unfold Params.opcodeLength Params.lengthOf
  split <;> omega

/-! ## The opcode map -/

/-- Every row of the table is the entry of its own opcode byte: no byte is assigned twice. -/
theorem dispatch_of_mem : ∀ r ∈ dispatchTable, dispatch r.opcode = r := by decide +kernel

/-- No byte of the undefined list has a row. -/
theorem opcode_defined : ∀ r ∈ dispatchTable, r.opcode ∉ undefinedOpcodes := by
  have h : (dispatchTable.all fun r => undefinedOpcodes.all fun u => u.toNat != r.opcode.toNat) = true := by decide +kernel
  intro r hr hu
  simpa using List.all_eq_true.mp (List.all_eq_true.mp h r hr) _ hu

/-- Every byte of the undefined list has the undefined entry. -/
theorem dispatch_undefined {op : Byte} (h : op ∈ undefinedOpcodes) : dispatch op = undefRow op := by
  have hn : (dispatchTable.find? fun r => r.opcode == op) = none :=
    List.find?_eq_none.mpr fun r hr he => opcode_defined r hr (beq_iff_eq.mp he ▸ h)
  simp [dispatch_eq, hn]

/-- An opcode byte has a row of the table or is undefined. -/
theorem dispatch_mem_or_undefined (op : Byte) : dispatch op ∈ dispatchTable ∨ op ∈ undefinedOpcodes := by
  have h : ∀ n : Fin 256, (dispatchTable.find? fun r => r.opcode.toNat == n.val).isSome ∨
      (undefinedOpcodes.any fun u => u.toNat == n.val) = true := by decide +kernel
  refine (h op.toFin).imp (fun hr => ?_) fun hu => ?_
  · have he : (fun r : DispatchRow => r.opcode.toNat == op.toNat) = fun r => r.opcode == op := by
      funext r; rw [Bool.eq_iff_iff]; simp [BitVec.toNat_inj]
    obtain ⟨r, hr⟩ := Option.isSome_iff_exists.mp hr
    have hr : (dispatchTable.find? fun r => r.opcode == op) = some r := he ▸ hr
    simpa [dispatch_eq, hr] using List.mem_of_find?_eq_some hr
  · obtain ⟨u, hu, he⟩ := List.any_eq_true.mp hu
    have he : u.toNat = op.toNat := by simpa using he
    exact BitVec.eq_of_toNat_eq he ▸ hu

/-- The entry of a byte carries that byte. -/
@[simp] theorem dispatch_opcode (op : Byte) : (dispatch op).opcode = op := by
  rw [dispatch_eq]
  cases h : dispatchTable.find? fun r => r.opcode == op with
  | none => rfl
  | some r => simpa using List.find?_some h

/-- The row of the table for a mnemonic in a mode names both. -/
theorem rowFor_some {m : Mnemonic} {mode : Mode} {r : DispatchRow} (h : rowFor m mode = some r) :
    r ∈ dispatchTable ∧ r.mnemonic = m ∧ r.mode = mode := by
  have hp := List.find?_some h
  simp only [Bool.and_eq_true, beq_iff_eq] at hp
  exact ⟨List.mem_of_find?_eq_some h, hp⟩

/-- The map gives a row to every mode a mnemonic has. -/
theorem rowFor_isSome (m : Mnemonic) (mode : Mode) (hm : m ≠ .undef) (h : mode ∈ m.modes) : (rowFor m mode).isSome = true := by
  revert h mode
  cases m <;> first | exact absurd rfl hm | decide

/-- A row of the table is the one its mnemonic and mode find: no mnemonic is assigned twice in a mode. -/
theorem rowFor_of_mem : ∀ r ∈ dispatchTable, rowFor r.mnemonic r.mode = some r := by decide +kernel

/-- A row of the table names a mnemonic of the instruction set in a mode the mnemonic has. -/
theorem mode_mem_of_mem : ∀ r ∈ dispatchTable, r.mnemonic ≠ .undef ∧ r.mode ∈ r.mnemonic.modes := by decide +kernel

/-! ## Operand bytes -/

@[simp] theorem operand_bytes_length (o : Operand) : o.bytes.length = o.mode.operandBytes := by cases o <;> rfl

@[simp] theorem operandOf_mode (mode : Mode) (b1 b2 : Byte) : (operandOf mode b1 b2).mode = mode := by cases mode <;> rfl

/-- An operand is the one its own bytes make. -/
@[simp] theorem operandOf_bytes (o : Operand) (rest : List Byte) :
    operandOf o.mode ((o.bytes ++ rest).getD 0 0) ((o.bytes ++ rest).getD 1 0) = o := by
  cases o <;> simp [operandOf, Operand.mode, Operand.bytes]

/-- The bytes of an operand made from a list are the first bytes of that list. -/
theorem bytes_operandOf {mode : Mode} {tail : List Byte} (h : mode.operandBytes ≤ tail.length) :
    (operandOf mode (tail.getD 0 0) (tail.getD 1 0)).bytes = tail.take mode.operandBytes := by
  match tail with
  | [] => cases mode <;> simp_all [operandOf, Operand.bytes, Mode.operandBytes]
  | [_] => cases mode <;> simp_all [operandOf, Operand.bytes, Mode.operandBytes]
  | _ :: _ :: _ => cases mode <;> simp [operandOf, Operand.bytes, Mode.operandBytes]

/-! ## Instructions -/

@[simp] theorem operand_mode (i : Instr) : i.operand.mode = i.mode := rfl

@[simp] theorem assemble_mnemonic (m : Mnemonic) (mode : Mode) (op b1 b2 : Byte) :
    (assemble m mode op b1 b2).mnemonic = m := by cases m <;> rfl

/-- The mode an instruction is assembled in, when it is one its mnemonic has. -/
theorem assemble_mode {m : Mnemonic} {mode : Mode} (h : mode ∈ m.modes) (op b1 b2 : Byte) :
    (assemble m mode op b1 b2).mode = mode := by
  have ho := operandOf_mode mode b1 b2
  cases m <;> first | exact ho | (simp [Mnemonic.modes] at h; subst h; rfl)

/-- The operand an instruction is assembled with, when its mode is one its mnemonic has. -/
theorem assemble_operand {m : Mnemonic} {mode : Mode} (h : mode ∈ m.modes) (op b1 b2 : Byte) :
    (assemble m mode op b1 b2).operand = operandOf mode b1 b2 := by
  cases m <;> first | rfl | (simp [Mnemonic.modes] at h; subst h; rfl)

/-- An instruction is assembled from its own mnemonic and operand. -/
theorem assemble_eq {i : Instr} (hne : i.mnemonic ≠ .undef) {b1 b2 : Byte} (ho : operandOf i.mode b1 b2 = i.operand)
    (op : Byte) : assemble i.mnemonic i.mode op b1 b2 = i := by
  cases i <;> first
    | exact congrArg _ ho
    | rfl
    | exact absurd rfl hne
    | (injection ho with ho; exact congrArg _ ho)

/-- What well-formedness says of an instruction that is not an undefined opcode. -/
theorem wf_iff_of_ne_undef {i : Instr} (h : i.mnemonic ≠ .undef) : i.wf = true ↔ i.mode ∈ i.mnemonic.modes := by
  cases i <;> simp_all [Instr.wf, Instr.undefByteOk, Instr.mnemonic]

theorem undef_wf_iff (op : Byte) : (Instr.undef op).wf = true ↔ op ∈ undefinedOpcodes := by
  simp [Instr.wf, Instr.undefByteOk, Instr.mnemonic, Instr.mode, Instr.operand, Operand.mode, Mnemonic.modes]

/-- Undefined opcode or not: what tells the two kinds of instruction apart. -/
theorem mnemonic_eq_undef_iff (i : Instr) : i.mnemonic = .undef ↔ ∃ op, i = .undef op := by
  cases i <;> simp [Instr.mnemonic]

/-- The encoding of a well-formed instruction: the opcode byte of its row, then its operand bytes. -/
theorem encode_of_row {i : Instr} {r : DispatchRow} (h : rowFor i.mnemonic i.mode = some r) :
    encode i = r.opcode :: i.operand.bytes := by
  have hne : i.mnemonic ≠ .undef := (rowFor_some h).2.1 ▸ (mode_mem_of_mem r (rowFor_some h).1).1
  cases i <;> simp_all [encode, Instr.opcode?, Instr.mnemonic]

theorem encode_undef {op : Byte} (h : op ∈ undefinedOpcodes) : encode (.undef op) = [op] := by
  simp [encode, Instr.opcode?, h, Instr.operand, Operand.bytes]

/-- A well-formed instruction that is no undefined opcode has a row. -/
theorem exists_row {i : Instr} (h : i.wf = true) (hne : i.mnemonic ≠ .undef) : ∃ r, rowFor i.mnemonic i.mode = some r :=
  Option.isSome_iff_exists.mp (rowFor_isSome _ _ hne ((wf_iff_of_ne_undef hne).mp h))

/-- The length of an instruction that is no undefined opcode. -/
theorem length_of_ne_undef {i : Instr} (h : i.mnemonic ≠ .undef) : i.length = 1 + i.mode.operandBytes := by
  simp [Instr.length, lengthOf_eq, h]

/-- The decoder on a list that holds enough bytes. -/
theorem decode_cons (op : Byte) (rest : List Byte) (h : opcodeLength op - 1 ≤ rest.length) :
    decode (op :: rest) = .ok (instrOfBytes op (rest.getD 0 0) (rest.getD 1 0), rest.drop (opcodeLength op - 1)) := by
  rw [decode_cons_eq, if_neg (Nat.not_lt.mpr h)]

/-- The decoder answers on an opcode byte exactly when the list holds that opcode's length, and what it answers. -/
theorem decode_eq_ok {bytes rest : List Byte} {i : Instr} (h : decode bytes = .ok (i, rest)) :
    ∃ op tail, bytes = op :: tail ∧ opcodeLength op - 1 ≤ tail.length ∧
      i = instrOfBytes op (tail.getD 0 0) (tail.getD 1 0) ∧ rest = tail.drop (opcodeLength op - 1) := by
  cases bytes with
  | nil => simp [decode_nil_eq] at h
  | cons op tail =>
    rw [decode_cons_eq] at h
    by_cases hl : tail.length < opcodeLength op - 1
    · simp [hl] at h
    · simp only [if_neg hl, Except.ok.injEq, Prod.mk.injEq] at h
      exact ⟨op, tail, rfl, Nat.not_lt.mp hl, h.1.symm, h.2.symm⟩

end Sys2Proof
end

