-- ==== Sys2Proof/Laws/Memory.lean ====
section
/-! SUPPORT. The laws of memory (20_memory.md R52, R53, R68): what a read after a write answers, for every list, and
that every memory operation keeps the canonical form. -/

namespace Sys2Proof.Machine

/-! ## Reads -/

theorem Memory.readKey_dropUpTo (m : Memory) {a b : Nat} (h : a < b) :
    Memory.readKey (Memory.dropUpTo m a) b = Memory.readKey m b := by
  induction m with
  | nil => rfl
  | cons cell rest ih =>
    obtain ⟨k, w⟩ := cell
    by_cases hk : k ≤ a
    · simp [Memory.dropUpTo, Memory.readKey, hk, ih, show ¬ b < k by omega, show b ≠ k by omega]
    · simp [Memory.dropUpTo, hk]

/-- The cells above a key say nothing about it. -/
theorem Memory.readKey_dropUpTo_low (m : Memory) {a b : Nat} (h : b ≤ a) :
    Memory.readKey (Memory.dropUpTo m a) b = Config.unlistedByte := by
  induction m with
  | nil => rfl
  | cons cell rest ih =>
    obtain ⟨k, w⟩ := cell
    by_cases hk : k ≤ a
    · simpa [Memory.dropUpTo, hk] using ih
    · simp [Memory.dropUpTo, Memory.readKey, hk, show b < k by omega]

/-- A read of the memory with `v` written at key `a`. -/
theorem Memory.readKey_writeKey (m : Memory) (a b : Nat) (v : Byte) :
    Memory.readKey (Memory.writeKey m a v) b = if b = a then v else Memory.readKey m b := by
  induction m with
  | nil =>
    by_cases hv : v = Config.unlistedByte <;> by_cases hb : b = a <;>
      simp [Memory.writeKey, Memory.cons, Memory.readKey, hv, hb]
  | cons cell rest ih =>
    obtain ⟨k, w⟩ := cell
    obtain hlt | heq | hgt := Nat.lt_trichotomy a k
    · by_cases hv : v = Config.unlistedByte
      · by_cases hb : b = a
        · simp [Memory.writeKey, Memory.cons, Memory.readKey, hv, hb, hlt]
        · simp [Memory.writeKey, Memory.cons, hv, hb, hlt]
      · by_cases hb : b = a
        · simp [Memory.writeKey, Memory.cons, Memory.readKey, hv, hb, hlt]
        · by_cases hba : b < a
          · simp [Memory.writeKey, Memory.cons, Memory.readKey, hv, hb, hlt, hba, show b < k by omega]
          · simp [Memory.writeKey, Memory.cons, Memory.readKey, hv, hb, hlt, hba]
    · subst heq
      obtain hb | hb | hb := Nat.lt_trichotomy b a
      · by_cases hv : v = Config.unlistedByte <;>
          simp [Memory.writeKey, Memory.cons, Memory.readKey, hv, hb, show b ≠ a by omega,
            Memory.readKey_dropUpTo_low _ (Nat.le_of_lt hb)]
      · subst hb
        by_cases hv : v = Config.unlistedByte <;>
          simp [Memory.writeKey, Memory.cons, Memory.readKey, hv, Memory.readKey_dropUpTo_low _ (Nat.le_refl _)]
      · by_cases hv : v = Config.unlistedByte <;>
          simp [Memory.writeKey, Memory.cons, Memory.readKey, hv, show ¬ b < a by omega, show b ≠ a by omega,
            Memory.readKey_dropUpTo _ hb]
    · rw [Memory.writeKey, if_neg (by omega), if_neg (by omega)]
      simp only [Memory.readKey, ih]
      by_cases hb : b = a
      · simp [hb, show ¬ a < k by omega, show a ≠ k by omega]
      · simp [hb]

/-- `M[b]` after `M[a] <- v` (20_memory.md R53). -/
theorem Memory.read_write (m : Memory) (a b : Addr) (v : Byte) :
    (m.write a v).read b = if b = a then v else m.read b := by
  simp [Memory.read, Memory.write, Memory.readKey_writeKey, BitVec.toNat_inj]

/-- A read answers the byte written last. -/
@[simp] theorem Memory.read_write_same (m : Memory) (a : Addr) (v : Byte) : (m.write a v).read a = v := by
  simp [Memory.read_write]

/-- A write leaves every other location alone. -/
theorem Memory.read_write_of_ne (m : Memory) {a b : Addr} (v : Byte) (h : b ≠ a) :
    (m.write a v).read b = m.read b := by
  simp [Memory.read_write, h]

/-- The memory with nothing listed reads the same byte everywhere. -/
@[simp] theorem Memory.read_nil (a : Addr) : Memory.read [] a = Config.unlistedByte := rfl

/-! ## The canonical form -/

/-- A lower bound on the keys may be lowered. -/
theorem Memory.wfFrom_mono {low high : Nat} (h : low ≤ high) {m : Memory} (hm : Memory.wfFrom high m = true) :
    Memory.wfFrom low m = true := by
  cases m with
  | nil => rfl
  | cons cell rest =>
    obtain ⟨k, w⟩ := cell
    simp only [Memory.wfFrom, Bool.and_eq_true, decide_eq_true_eq] at hm ⊢
    exact ⟨⟨⟨by omega, hm.1.1.2⟩, hm.1.2⟩, hm.2⟩

theorem Memory.wfFrom_dropUpTo {low a : Nat} {m : Memory} (hm : Memory.wfFrom low m = true) :
    Memory.wfFrom (a + 1) (Memory.dropUpTo m a) = true := by
  induction m generalizing low with
  | nil => rfl
  | cons cell rest ih =>
    obtain ⟨k, w⟩ := cell
    simp only [Memory.wfFrom, Bool.and_eq_true, decide_eq_true_eq] at hm
    by_cases hk : k ≤ a
    · simpa [Memory.dropUpTo, hk] using ih hm.2
    · simp only [Memory.dropUpTo, if_neg hk, Memory.wfFrom, Bool.and_eq_true, decide_eq_true_eq]
      exact ⟨⟨⟨by omega, hm.1.1.2⟩, hm.1.2⟩, hm.2⟩

theorem Memory.wfFrom_cons {low a : Nat} (v : Byte) {rest : Memory} (hlow : low ≤ a) (ha : a < 65536)
    (hr : Memory.wfFrom (a + 1) rest = true) : Memory.wfFrom low (Memory.cons a v rest) = true := by
  by_cases hv : v = Config.unlistedByte
  · simpa [Memory.cons, hv] using Memory.wfFrom_mono (by omega) hr
  · simp [Memory.cons, Memory.wfFrom, hv, hlow, ha, hr]

theorem Memory.wfFrom_writeKey {low a : Nat} (v : Byte) {m : Memory} (hlow : low ≤ a) (ha : a < 65536)
    (hm : Memory.wfFrom low m = true) : Memory.wfFrom low (Memory.writeKey m a v) = true := by
  induction m generalizing low with
  | nil => exact Memory.wfFrom_cons v hlow ha rfl
  | cons cell rest ih =>
    obtain ⟨k, w⟩ := cell
    have hm' := hm
    simp only [Memory.wfFrom, Bool.and_eq_true, decide_eq_true_eq] at hm'
    by_cases hlt : a < k
    · simp only [Memory.writeKey, if_pos hlt]
      refine Memory.wfFrom_cons v hlow ha ?_
      simp only [Memory.wfFrom, Bool.and_eq_true, decide_eq_true_eq]
      exact ⟨⟨⟨by omega, hm'.1.1.2⟩, hm'.1.2⟩, hm'.2⟩
    · by_cases heq : a = k
      · simp only [Memory.writeKey, if_neg hlt, if_pos heq]
        exact Memory.wfFrom_cons v hlow ha (Memory.wfFrom_dropUpTo hm'.2)
      · simp only [Memory.writeKey, if_neg hlt, if_neg heq, Memory.wfFrom, Bool.and_eq_true, decide_eq_true_eq]
        exact ⟨hm'.1, ih (by omega) hm'.2⟩

/-- The memory with nothing listed is in canonical form. -/
@[simp] theorem Memory.wf_nil : Memory.wf [] = true := rfl

/-- A write keeps the canonical form. -/
theorem Memory.wf_write {m : Memory} (hm : m.wf = true) (a : Addr) (v : Byte) : (m.write a v).wf = true :=
  Memory.wfFrom_writeKey v (Nat.zero_le _) a.isLt hm

/-- Loading bytes keeps the canonical form. -/
theorem Memory.wf_load {m : Memory} (hm : m.wf = true) (a : Addr) (bytes : List Byte) : (m.load a bytes).wf = true := by
  induction bytes generalizing m a with
  | nil => exact hm
  | cons b rest ih => exact ih (Memory.wf_write hm a b) (a + 1)

/-! ## Loading bytes -/

@[simp] theorem Memory.load_nil (m : Memory) (a : Addr) : m.load a [] = m := rfl

theorem Memory.load_cons (m : Memory) (a : Addr) (b : Byte) (rest : List Byte) :
    m.load a (b :: rest) = (m.write a b).load (a + 1) rest := rfl

/-- A location none of the loaded bytes goes to reads as before. -/
theorem Memory.read_load_of_ne (m : Memory) (a b : Addr) (bytes : List Byte)
    (h : ∀ k < bytes.length, b ≠ a + BitVec.ofNat 16 k) : (m.load a bytes).read b = m.read b := by
  induction bytes generalizing m a with
  | nil => rfl
  | cons v rest ih =>
    have h0 : b ≠ a := by simpa using h 0 (by simp)
    rw [Memory.load_cons, ih, Memory.read_write_of_ne _ _ h0]
    intro k hk heq
    refine h (k + 1) (by simpa using hk) (heq.trans ?_)
    rw [BitVec.add_assoc]
    congr 1
    apply BitVec.eq_of_toNat_eq
    simp [BitVec.toNat_add, Nat.add_comm]

end Sys2Proof.Machine
end

