-- ==== Sys2Proof/Laws/State.lean ====
section
/-! SUPPORT. One lemma a field for each named update of the state, so that no later proof unfolds a record update. -/

namespace Sys2Proof.Machine

/-! ## `busWrite` -/

@[simp] theorem busWrite_a (addr : Addr) (v : Byte) (s : State) : (busWrite addr v s).a = s.a := rfl
@[simp] theorem busWrite_x (addr : Addr) (v : Byte) (s : State) : (busWrite addr v s).x = s.x := rfl
@[simp] theorem busWrite_y (addr : Addr) (v : Byte) (s : State) : (busWrite addr v s).y = s.y := rfl
@[simp] theorem busWrite_sp (addr : Addr) (v : Byte) (s : State) : (busWrite addr v s).sp = s.sp := rfl
@[simp] theorem busWrite_pc (addr : Addr) (v : Byte) (s : State) : (busWrite addr v s).pc = s.pc := rfl
@[simp] theorem busWrite_flags (addr : Addr) (v : Byte) (s : State) : (busWrite addr v s).flags = s.flags := rfl
@[simp] theorem busWrite_cycleCount (addr : Addr) (v : Byte) (s : State) :
    (busWrite addr v s).cycleCount = s.cycleCount := rfl
@[simp] theorem busWrite_nmiPending (addr : Addr) (v : Byte) (s : State) :
    (busWrite addr v s).nmiPending = s.nmiPending := rfl
@[simp] theorem busWrite_irqPending (addr : Addr) (v : Byte) (s : State) :
    (busWrite addr v s).irqPending = s.irqPending := rfl
@[simp] theorem busWrite_mem (addr : Addr) (v : Byte) (s : State) :
    (busWrite addr v s).mem = s.mem.write addr v := rfl

/-! ## `loadA` -/

@[simp] theorem loadA_a (v : Byte) (s : State) : (loadA v s).a = v := rfl
@[simp] theorem loadA_x (v : Byte) (s : State) : (loadA v s).x = s.x := rfl
@[simp] theorem loadA_y (v : Byte) (s : State) : (loadA v s).y = s.y := rfl
@[simp] theorem loadA_sp (v : Byte) (s : State) : (loadA v s).sp = s.sp := rfl
@[simp] theorem loadA_pc (v : Byte) (s : State) : (loadA v s).pc = s.pc := rfl
@[simp] theorem loadA_flags (v : Byte) (s : State) : (loadA v s).flags = setZN v s.flags := rfl
@[simp] theorem loadA_cycleCount (v : Byte) (s : State) : (loadA v s).cycleCount = s.cycleCount := rfl
@[simp] theorem loadA_nmiPending (v : Byte) (s : State) : (loadA v s).nmiPending = s.nmiPending := rfl
@[simp] theorem loadA_irqPending (v : Byte) (s : State) : (loadA v s).irqPending = s.irqPending := rfl
@[simp] theorem loadA_mem (v : Byte) (s : State) : (loadA v s).mem = s.mem := rfl

/-! ## `loadX` -/

@[simp] theorem loadX_a (v : Byte) (s : State) : (loadX v s).a = s.a := rfl
@[simp] theorem loadX_x (v : Byte) (s : State) : (loadX v s).x = v := rfl
@[simp] theorem loadX_y (v : Byte) (s : State) : (loadX v s).y = s.y := rfl
@[simp] theorem loadX_sp (v : Byte) (s : State) : (loadX v s).sp = s.sp := rfl
@[simp] theorem loadX_pc (v : Byte) (s : State) : (loadX v s).pc = s.pc := rfl
@[simp] theorem loadX_flags (v : Byte) (s : State) : (loadX v s).flags = setZN v s.flags := rfl
@[simp] theorem loadX_cycleCount (v : Byte) (s : State) : (loadX v s).cycleCount = s.cycleCount := rfl
@[simp] theorem loadX_nmiPending (v : Byte) (s : State) : (loadX v s).nmiPending = s.nmiPending := rfl
@[simp] theorem loadX_irqPending (v : Byte) (s : State) : (loadX v s).irqPending = s.irqPending := rfl
@[simp] theorem loadX_mem (v : Byte) (s : State) : (loadX v s).mem = s.mem := rfl

/-! ## `loadY` -/

@[simp] theorem loadY_a (v : Byte) (s : State) : (loadY v s).a = s.a := rfl
@[simp] theorem loadY_x (v : Byte) (s : State) : (loadY v s).x = s.x := rfl
@[simp] theorem loadY_y (v : Byte) (s : State) : (loadY v s).y = v := rfl
@[simp] theorem loadY_sp (v : Byte) (s : State) : (loadY v s).sp = s.sp := rfl
@[simp] theorem loadY_pc (v : Byte) (s : State) : (loadY v s).pc = s.pc := rfl
@[simp] theorem loadY_flags (v : Byte) (s : State) : (loadY v s).flags = setZN v s.flags := rfl
@[simp] theorem loadY_cycleCount (v : Byte) (s : State) : (loadY v s).cycleCount = s.cycleCount := rfl
@[simp] theorem loadY_nmiPending (v : Byte) (s : State) : (loadY v s).nmiPending = s.nmiPending := rfl
@[simp] theorem loadY_irqPending (v : Byte) (s : State) : (loadY v s).irqPending = s.irqPending := rfl
@[simp] theorem loadY_mem (v : Byte) (s : State) : (loadY v s).mem = s.mem := rfl

/-! ## `setSp` -/

@[simp] theorem setSp_a (v : Byte) (s : State) : (setSp v s).a = s.a := rfl
@[simp] theorem setSp_x (v : Byte) (s : State) : (setSp v s).x = s.x := rfl
@[simp] theorem setSp_y (v : Byte) (s : State) : (setSp v s).y = s.y := rfl
@[simp] theorem setSp_sp (v : Byte) (s : State) : (setSp v s).sp = v := rfl
@[simp] theorem setSp_pc (v : Byte) (s : State) : (setSp v s).pc = s.pc := rfl
@[simp] theorem setSp_flags (v : Byte) (s : State) : (setSp v s).flags = s.flags := rfl
@[simp] theorem setSp_cycleCount (v : Byte) (s : State) : (setSp v s).cycleCount = s.cycleCount := rfl
@[simp] theorem setSp_nmiPending (v : Byte) (s : State) : (setSp v s).nmiPending = s.nmiPending := rfl
@[simp] theorem setSp_irqPending (v : Byte) (s : State) : (setSp v s).irqPending = s.irqPending := rfl
@[simp] theorem setSp_mem (v : Byte) (s : State) : (setSp v s).mem = s.mem := rfl

/-! ## `setPc` -/

@[simp] theorem setPc_a (target : Addr) (s : State) : (setPc target s).a = s.a := rfl
@[simp] theorem setPc_x (target : Addr) (s : State) : (setPc target s).x = s.x := rfl
@[simp] theorem setPc_y (target : Addr) (s : State) : (setPc target s).y = s.y := rfl
@[simp] theorem setPc_sp (target : Addr) (s : State) : (setPc target s).sp = s.sp := rfl
@[simp] theorem setPc_pc (target : Addr) (s : State) : (setPc target s).pc = target := rfl
@[simp] theorem setPc_flags (target : Addr) (s : State) : (setPc target s).flags = s.flags := rfl
@[simp] theorem setPc_cycleCount (target : Addr) (s : State) : (setPc target s).cycleCount = s.cycleCount := rfl
@[simp] theorem setPc_nmiPending (target : Addr) (s : State) : (setPc target s).nmiPending = s.nmiPending := rfl
@[simp] theorem setPc_irqPending (target : Addr) (s : State) : (setPc target s).irqPending = s.irqPending := rfl
@[simp] theorem setPc_mem (target : Addr) (s : State) : (setPc target s).mem = s.mem := rfl

/-! ## `setFlags` -/

@[simp] theorem setFlags_a (f : Flags) (s : State) : (setFlags f s).a = s.a := rfl
@[simp] theorem setFlags_x (f : Flags) (s : State) : (setFlags f s).x = s.x := rfl
@[simp] theorem setFlags_y (f : Flags) (s : State) : (setFlags f s).y = s.y := rfl
@[simp] theorem setFlags_sp (f : Flags) (s : State) : (setFlags f s).sp = s.sp := rfl
@[simp] theorem setFlags_pc (f : Flags) (s : State) : (setFlags f s).pc = s.pc := rfl
@[simp] theorem setFlags_flags (f : Flags) (s : State) : (setFlags f s).flags = f := rfl
@[simp] theorem setFlags_cycleCount (f : Flags) (s : State) : (setFlags f s).cycleCount = s.cycleCount := rfl
@[simp] theorem setFlags_nmiPending (f : Flags) (s : State) : (setFlags f s).nmiPending = s.nmiPending := rfl
@[simp] theorem setFlags_irqPending (f : Flags) (s : State) : (setFlags f s).irqPending = s.irqPending := rfl
@[simp] theorem setFlags_mem (f : Flags) (s : State) : (setFlags f s).mem = s.mem := rfl

/-! ## `addCycles` -/

@[simp] theorem addCycles_a (cycles : Nat) (s : State) : (addCycles cycles s).a = s.a := rfl
@[simp] theorem addCycles_x (cycles : Nat) (s : State) : (addCycles cycles s).x = s.x := rfl
@[simp] theorem addCycles_y (cycles : Nat) (s : State) : (addCycles cycles s).y = s.y := rfl
@[simp] theorem addCycles_sp (cycles : Nat) (s : State) : (addCycles cycles s).sp = s.sp := rfl
@[simp] theorem addCycles_pc (cycles : Nat) (s : State) : (addCycles cycles s).pc = s.pc := rfl
@[simp] theorem addCycles_flags (cycles : Nat) (s : State) : (addCycles cycles s).flags = s.flags := rfl
@[simp] theorem addCycles_cycleCount (cycles : Nat) (s : State) :
    (addCycles cycles s).cycleCount = s.cycleCount + cycles := rfl
@[simp] theorem addCycles_nmiPending (cycles : Nat) (s : State) :
    (addCycles cycles s).nmiPending = s.nmiPending := rfl
@[simp] theorem addCycles_irqPending (cycles : Nat) (s : State) :
    (addCycles cycles s).irqPending = s.irqPending := rfl
@[simp] theorem addCycles_mem (cycles : Nat) (s : State) : (addCycles cycles s).mem = s.mem := rfl

/-! ## `push` -/

@[simp] theorem push_a (v : Byte) (s : State) : (push v s).a = s.a := rfl
@[simp] theorem push_x (v : Byte) (s : State) : (push v s).x = s.x := rfl
@[simp] theorem push_y (v : Byte) (s : State) : (push v s).y = s.y := rfl
@[simp] theorem push_sp (v : Byte) (s : State) : (push v s).sp = s.sp - 1 := rfl
@[simp] theorem push_pc (v : Byte) (s : State) : (push v s).pc = s.pc := rfl
@[simp] theorem push_flags (v : Byte) (s : State) : (push v s).flags = s.flags := rfl
@[simp] theorem push_cycleCount (v : Byte) (s : State) : (push v s).cycleCount = s.cycleCount := rfl
@[simp] theorem push_nmiPending (v : Byte) (s : State) : (push v s).nmiPending = s.nmiPending := rfl
@[simp] theorem push_irqPending (v : Byte) (s : State) : (push v s).irqPending = s.irqPending := rfl
@[simp] theorem push_mem (v : Byte) (s : State) : (push v s).mem = s.mem.write (stackAddr (s.sp - 1)) v := rfl

/-! ## `pull` -/

@[simp] theorem pull_a (s : State) : (pull s).2.a = s.a := rfl
@[simp] theorem pull_x (s : State) : (pull s).2.x = s.x := rfl
@[simp] theorem pull_y (s : State) : (pull s).2.y = s.y := rfl
@[simp] theorem pull_sp (s : State) : (pull s).2.sp = s.sp + 1 := rfl
@[simp] theorem pull_pc (s : State) : (pull s).2.pc = s.pc := rfl
@[simp] theorem pull_flags (s : State) : (pull s).2.flags = s.flags := rfl
@[simp] theorem pull_cycleCount (s : State) : (pull s).2.cycleCount = s.cycleCount := rfl
@[simp] theorem pull_nmiPending (s : State) : (pull s).2.nmiPending = s.nmiPending := rfl
@[simp] theorem pull_irqPending (s : State) : (pull s).2.irqPending = s.irqPending := rfl
@[simp] theorem pull_mem (s : State) : (pull s).2.mem = s.mem := rfl
@[simp] theorem pull_value (s : State) : (pull s).1 = s.mem.read (stackAddr s.sp) := rfl

/-! ## `pushWord` -/

@[simp] theorem pushWord_a (w : Addr) (s : State) : (pushWord w s).a = s.a := rfl
@[simp] theorem pushWord_x (w : Addr) (s : State) : (pushWord w s).x = s.x := rfl
@[simp] theorem pushWord_y (w : Addr) (s : State) : (pushWord w s).y = s.y := rfl
@[simp] theorem pushWord_sp (w : Addr) (s : State) : (pushWord w s).sp = s.sp - 1 - 1 := rfl
@[simp] theorem pushWord_pc (w : Addr) (s : State) : (pushWord w s).pc = s.pc := rfl
@[simp] theorem pushWord_flags (w : Addr) (s : State) : (pushWord w s).flags = s.flags := rfl
@[simp] theorem pushWord_cycleCount (w : Addr) (s : State) : (pushWord w s).cycleCount = s.cycleCount := rfl
@[simp] theorem pushWord_nmiPending (w : Addr) (s : State) : (pushWord w s).nmiPending = s.nmiPending := rfl
@[simp] theorem pushWord_irqPending (w : Addr) (s : State) : (pushWord w s).irqPending = s.irqPending := rfl
@[simp] theorem pushWord_mem (w : Addr) (s : State) :
    (pushWord w s).mem = (s.mem.write (stackAddr (s.sp - 1)) (hiByte w)).write (stackAddr (s.sp - 1 - 1)) (loByte w) := rfl

/-! ## `pullWord` -/

@[simp] theorem pullWord_a (s : State) : (pullWord s).2.a = s.a := rfl
@[simp] theorem pullWord_x (s : State) : (pullWord s).2.x = s.x := rfl
@[simp] theorem pullWord_y (s : State) : (pullWord s).2.y = s.y := rfl
@[simp] theorem pullWord_sp (s : State) : (pullWord s).2.sp = s.sp + 1 + 1 := rfl
@[simp] theorem pullWord_pc (s : State) : (pullWord s).2.pc = s.pc := rfl
@[simp] theorem pullWord_flags (s : State) : (pullWord s).2.flags = s.flags := rfl
@[simp] theorem pullWord_cycleCount (s : State) : (pullWord s).2.cycleCount = s.cycleCount := rfl
@[simp] theorem pullWord_nmiPending (s : State) : (pullWord s).2.nmiPending = s.nmiPending := rfl
@[simp] theorem pullWord_irqPending (s : State) : (pullWord s).2.irqPending = s.irqPending := rfl
@[simp] theorem pullWord_mem (s : State) : (pullWord s).2.mem = s.mem := rfl
@[simp] theorem pullWord_value (s : State) :
    (pullWord s).1 = word16 (s.mem.read (stackAddr (s.sp + 1))) (s.mem.read (stackAddr s.sp)) := rfl

/-! ## The bus and the interrupt latches -/

@[simp] theorem busRead_eq (s : State) (addr : Addr) : busRead s addr = s.mem.read addr := rfl
@[simp] theorem withNoService_a (s : State) : (withNoService s).a = s.a := rfl
@[simp] theorem withNoService_x (s : State) : (withNoService s).x = s.x := rfl
@[simp] theorem withNoService_y (s : State) : (withNoService s).y = s.y := rfl
@[simp] theorem withNoService_sp (s : State) : (withNoService s).sp = s.sp := rfl
@[simp] theorem withNoService_pc (s : State) : (withNoService s).pc = s.pc := rfl
@[simp] theorem withNoService_flags (s : State) : (withNoService s).flags = s.flags := rfl
@[simp] theorem withNoService_cycleCount (s : State) : (withNoService s).cycleCount = s.cycleCount := rfl
@[simp] theorem withNoService_nmiPending (s : State) : (withNoService s).nmiPending = false := rfl
@[simp] theorem withNoService_irqPending (s : State) : (withNoService s).irqPending = (s.irqPending && s.flags.i) := rfl
@[simp] theorem withNoService_mem (s : State) : (withNoService s).mem = s.mem := rfl

end Sys2Proof.Machine
end

