-- ==== Sys2Proof/Laws/Ops.lean ====
section
/-! SUPPORT. What each shared operation can do, said once: the stack, entering and leaving a trap, fetching an
instruction, reading and writing an operand, completing an instruction, and the cases of a step. -/

namespace Sys2Proof.Machine

/-! ## The stack (10_state.md R22, R27, R28) -/

theorem stackAddr_toNat (sp : Byte) : (stackAddr sp).toNat = 256 + sp.toNat := by
  simp [stackAddr, word16_toNat, stackPage]

theorem stackAddr_eq (sp : Byte) : stackAddr sp = 0x0100 + sp.setWidth 16 := by
  apply BitVec.eq_of_toNat_eq
  have := sp.isLt
  rw [stackAddr_toNat]
  simp [BitVec.toNat_add, BitVec.toNat_setWidth]
  omega

theorem stackAddr_inj {p q : Byte} : stackAddr p = stackAddr q ↔ p = q := by
  constructor
  · intro h
    have := congrArg BitVec.toNat h
    rw [stackAddr_toNat, stackAddr_toNat] at this
    exact BitVec.eq_of_toNat_eq (by omega)
  · rintro rfl; rfl

/-- The one thing a push does. -/
theorem push_eq (v : Byte) (s : State) :
    push v s = { s with sp := s.sp - 1, mem := s.mem.write (stackAddr (s.sp - 1)) v } := rfl

/-- The one thing a 16-bit push does: the high byte lies above the low byte. -/
theorem pushWord_eq (w : Addr) (s : State) :
    pushWord w s = { s with
      sp := s.sp - 2
      mem := (s.mem.write (stackAddr (s.sp - 1)) (hiByte w)).write (stackAddr (s.sp - 2)) (loByte w) } := by
  have h : s.sp - 1#8 - 1#8 = s.sp - 2#8 := by rw [BitVec.sub_sub]; rfl
  simp [pushWord, push_eq, h]

/-- What a 16-bit pull answers and leaves. -/
theorem pullWord_eq (s : State) :
    pullWord s = (word16 (s.mem.read (stackAddr (s.sp + 1))) (s.mem.read (stackAddr s.sp)), { s with sp := s.sp + 2 }) := by
  have h : s.sp + 1#8 + 1#8 = s.sp + 2#8 := by rw [BitVec.add_assoc]; rfl
  simp [pullWord, pull, setSp, h]

/-! ## Traps (60_exceptions.md R230, R231) -/

/-- The memory a trap entry leaves. -/
@[simp] theorem enterTrap_mem (ret : Addr) (status : Byte) (vector : Addr) (s : State) :
    (enterTrap ret status vector s).mem =
      ((s.mem.write (stackAddr (s.sp - 1)) (hiByte ret)).write (stackAddr (s.sp - 2)) (loByte ret)).write
        (stackAddr (s.sp - 3)) status := by
  have h : s.sp - 2#8 - 1#8 = s.sp - 3#8 := by rw [BitVec.sub_sub]; rfl
  simp [enterTrap, pushWord_eq, push_eq, h]

@[simp] theorem enterTrap_sp (ret : Addr) (status : Byte) (vector : Addr) (s : State) : (enterTrap ret status vector s).sp = s.sp - 3 := by
  have h : s.sp - 2#8 - 1#8 = s.sp - 3#8 := by rw [BitVec.sub_sub]; rfl
  simp [enterTrap, pushWord_eq, push_eq, h]

@[simp] theorem enterTrap_flags (ret : Addr) (status : Byte) (vector : Addr) (s : State) :
    (enterTrap ret status vector s).flags = { s.flags with i := true } := rfl

/-- `PC` is loaded from the vector after the pushes. -/
theorem enterTrap_pc (ret : Addr) (status : Byte) (vector : Addr) (s : State) :
    (enterTrap ret status vector s).pc = word16 ((enterTrap ret status vector s).mem.read (vector + 1)) ((enterTrap ret status vector s).mem.read vector) := rfl

@[simp] theorem enterTrap_a (ret : Addr) (status : Byte) (vector : Addr) (s : State) :
    (enterTrap ret status vector s).a = s.a := rfl
@[simp] theorem enterTrap_x (ret : Addr) (status : Byte) (vector : Addr) (s : State) :
    (enterTrap ret status vector s).x = s.x := rfl
@[simp] theorem enterTrap_y (ret : Addr) (status : Byte) (vector : Addr) (s : State) :
    (enterTrap ret status vector s).y = s.y := rfl
@[simp] theorem enterTrap_cycleCount (ret : Addr) (status : Byte) (vector : Addr) (s : State) :
    (enterTrap ret status vector s).cycleCount = s.cycleCount := rfl
@[simp] theorem enterTrap_nmiPending (ret : Addr) (status : Byte) (vector : Addr) (s : State) :
    (enterTrap ret status vector s).nmiPending = s.nmiPending := rfl
@[simp] theorem enterTrap_irqPending (ret : Addr) (status : Byte) (vector : Addr) (s : State) :
    (enterTrap ret status vector s).irqPending = s.irqPending := rfl

/-- The one thing a trap entry does. For rewriting once, not for a simp set: the right side names the entry's memory. -/
theorem enterTrap_eq (ret : Addr) (status : Byte) (vector : Addr) (s : State) :
    enterTrap ret status vector s = { s with
      sp := s.sp - 3
      mem := (enterTrap ret status vector s).mem
      flags := { s.flags with i := true }
      pc := word16 ((enterTrap ret status vector s).mem.read (vector + 1)) ((enterTrap ret status vector s).mem.read vector) } := by
  have h := enterTrap_sp ret status vector s
  rw [← h]
  rfl

/-- The one thing a return from a trap does. -/
theorem returnFromTrap_eq (s : State) :
    returnFromTrap s = { s with
      sp := s.sp + 3
      flags := applyStatus (s.mem.read (stackAddr s.sp))
      pc := word16 (s.mem.read (stackAddr (s.sp + 2))) (s.mem.read (stackAddr (s.sp + 1))) } := by
  have h : s.sp + 1#8 + 2#8 = s.sp + 3#8 := by rw [BitVec.add_assoc]; rfl
  have h2 : s.sp + 1#8 + 1#8 = s.sp + 2#8 := by rw [BitVec.add_assoc]; rfl
  simp [returnFromTrap, pullWord_eq, pull, setSp, setFlags, setPc, h, h2]

@[simp] theorem returnFromTrap_a (s : State) : (returnFromTrap s).a = s.a := rfl
@[simp] theorem returnFromTrap_x (s : State) : (returnFromTrap s).x = s.x := rfl
@[simp] theorem returnFromTrap_y (s : State) : (returnFromTrap s).y = s.y := rfl
@[simp] theorem returnFromTrap_cycleCount (s : State) : (returnFromTrap s).cycleCount = s.cycleCount := rfl
@[simp] theorem returnFromTrap_nmiPending (s : State) : (returnFromTrap s).nmiPending = s.nmiPending := rfl
@[simp] theorem returnFromTrap_irqPending (s : State) : (returnFromTrap s).irqPending = s.irqPending := rfl
@[simp] theorem returnFromTrap_mem (s : State) : (returnFromTrap s).mem = s.mem := rfl

/-- A push keeps the canonical form of memory. -/
theorem wf_push {s : State} (h : s.mem.wf = true) (v : Byte) : (push v s).mem.wf = true := Memory.wf_write h _ _

/-- A trap entry keeps the canonical form of memory. -/
theorem wf_enterTrap {s : State} (h : s.mem.wf = true) (ret : Addr) (status : Byte) (vector : Addr) :
    (enterTrap ret status vector s).mem.wf = true := by
  rw [enterTrap_mem]
  exact Memory.wf_write (Memory.wf_write (Memory.wf_write h _ _) _ _) _ _

/-- Writing an operand keeps the canonical form of memory. -/
theorem wf_writeOperand {s : State} (h : s.mem.wf = true) (o : Operand) (v : Byte) : (writeOperand o v s).mem.wf = true := by
  cases o <;> first | exact h | exact Memory.wf_write h _ _

/-! ## The status byte (10_state.md R30, R31) -/

/-- Unpacking a packed status byte gives the flags back, with `U` set. -/
theorem applyStatus_compose (f : Flags) : applyStatus (compose f) = { f with u := true } := by
  have h : ∀ c z i d b u v n : Bool, applyStatus (compose ⟨c, z, i, d, b, u, v, n⟩) = ⟨c, z, i, d, b, true, v, n⟩ := by
    decide +kernel
  exact h f.c f.z f.i f.d f.b f.u f.v f.n

/-- A service's status byte unpacks with `B` clear. -/
theorem applyStatus_serviceStatus (f : Flags) : applyStatus (serviceStatus f) = { f with u := true, b := false } := by
  have h : ∀ c z i d b u v n : Bool, applyStatus (serviceStatus ⟨c, z, i, d, b, u, v, n⟩) = ⟨c, z, i, d, false, true, v, n⟩ := by
    decide +kernel
  exact h f.c f.z f.i f.d f.b f.u f.v f.n

/-- BRK's status byte unpacks with `B` set. -/
theorem applyStatus_breakStatus (f : Flags) : applyStatus (compose f ||| 0x10) = { f with u := true, b := true } := by
  have h : ∀ c z i d b u v n : Bool, applyStatus (compose ⟨c, z, i, d, b, u, v, n⟩ ||| 0x10) = ⟨c, z, i, d, true, true, v, n⟩ := by
    decide +kernel
  exact h f.c f.z f.i f.d f.b f.u f.v f.n

/-! ## Addresses (40_addressing_modes.md R104, R106, R115) -/

theorem indexed_toNat (base : Addr) (index : Byte) : (indexed base index).toNat = (base.toNat + index.toNat) % 65536 := by
  have := index.isLt
  simp [indexed, BitVec.toNat_add]

/-- Two pages differ when their numbers do. -/
theorem otherPage_iff (base ea : Addr) : otherPage base ea = true ↔ ea.toNat / 256 ≠ base.toNat / 256 := by
  simp only [otherPage, bne_iff_ne, ne_eq, ← BitVec.toNat_inj, hiByte_toNat]

theorem word16_and_high (hi lo : Byte) : word16 hi lo &&& 0xFF00 = word16 hi 0 := by
  have h : word16 hi lo &&& word16 0xFF 0x00 = word16 (hi &&& 0xFF) (lo &&& 0x00) := @BitVec.and_append 8 8 hi 0xFF lo 0x00
  have hi' : hi &&& 0xFF = hi := BitVec.and_allOnes
  have lo' : lo &&& 0x00 = 0 := BitVec.and_zero
  rw [hi', lo'] at h
  exact h

theorem word16_and_low (hi lo : Byte) : word16 hi lo &&& 0x00FF = word16 0 lo := by
  have h : word16 hi lo &&& word16 0x00 0xFF = word16 (hi &&& 0x00) (lo &&& 0xFF) := @BitVec.and_append 8 8 hi 0x00 lo 0xFF
  have lo' : lo &&& 0xFF = lo := BitVec.and_allOnes
  have hi' : hi &&& 0x00 = 0 := BitVec.and_zero
  rw [lo', hi'] at h
  exact h

/-- The high byte of an indirect pointer is read inside the pointer's own page. -/
theorem indirectHighAddr_word16 (hi lo : Byte) : indirectHighAddr (word16 hi lo) = word16 hi (lo + 1) := by
  have hl : loByte (word16 hi lo + 1) = lo + 1 := by
    apply BitVec.eq_of_toNat_eq
    simp [loByte_toNat, BitVec.toNat_add, word16_toNat]
    omega
  have h : word16 hi 0 ||| word16 0 (lo + 1) = word16 (hi ||| 0) (0 ||| (lo + 1)) := @BitVec.or_append 8 8 hi 0 0 (lo + 1)
  rw [indirectHighAddr, word16_and_high, ← word16_hiByte_loByte (word16 hi lo + 1), word16_and_low, hl, h]
  simp

/-! ## Fetching (30_encoding.md R80, R82) -/

/-- Every opcode has one to three bytes. -/
theorem opcodeLength_cases (op : Byte) : opcodeLength op = 1 ∨ opcodeLength op = 2 ∨ opcodeLength op = 3 := by
  rw [opcodeLength_eq, lengthOf_eq, Config.undefLen]
  split
  · exact .inl rfl
  · cases (dispatch op).mode <;> simp [Mode.operandBytes]

/-- One address on, and `n` more. -/
theorem addr_succ (a : Addr) (n : Nat) : a + 1#16 + BitVec.ofNat 16 n = a + BitVec.ofNat 16 (n + 1) := by
  rw [BitVec.add_assoc, Nat.add_comm n 1, BitVec.ofNat_add]

/-- What `n` fetches leave: `PC` past `n` bytes. -/
theorem fetchBytes_state (n : Nat) (s : State) : (fetchBytes n s).2 = { s with pc := s.pc + BitVec.ofNat 16 n } := by
  induction n generalizing s with
  | zero => simp [fetchBytes]
  | succ n ih =>
    simp only [fetchBytes, fetch8, ih, setPc]
    rw [← addr_succ]
    rfl

/-- The `k`-th of `n` fetched bytes. -/
theorem fetchBytes_getD (n k : Nat) (s : State) (h : k < n) :
    (fetchBytes n s).1.getD k 0 = s.mem.read (s.pc + BitVec.ofNat 16 k) := by
  induction n generalizing s k with
  | zero => omega
  | succ n ih =>
    cases k with
    | zero => simp [fetchBytes, fetch8]
    | succ k =>
      have := ih k (setPc (s.pc + 1) s) (by omega)
      rw [setPc_mem, setPc_pc] at this
      rw [← addr_succ]
      exact this

/-- What a fetch answers and leaves, when no byte past the length takes part in what it builds: what the three bytes at `PC`
begin, and `PC` past the length. -/
theorem fetchBy_eq {α : Type} {length : Byte → Nat} {build : Byte → Byte → Byte → α} {s : State}
    (hpos : 1 ≤ length (s.mem.read s.pc))
    (hcongr : ∀ b1 b2 c1 c2 : Byte, (2 ≤ length (s.mem.read s.pc) → b1 = c1) → (3 ≤ length (s.mem.read s.pc) → b2 = c2) →
      build (s.mem.read s.pc) b1 b2 = build (s.mem.read s.pc) c1 c2) :
    fetchBy length build s =
      (build (s.mem.read s.pc) (s.mem.read (s.pc + 1)) (s.mem.read (s.pc + 2)),
        { s with pc := s.pc + BitVec.ofNat 16 (length (s.mem.read s.pc)) }) := by
  have e2 : s.pc + 1#16 + 1#16 = s.pc + 2#16 := by rw [BitVec.add_assoc]; rfl
  refine Prod.ext (hcongr _ _ _ _ (fun h => ?_) fun h => ?_) ?_
  · have := fetchBytes_getD (length (s.mem.read s.pc) - 1) 0 (setPc (s.pc + 1) s) (by omega)
    simpa [fetch8, setPc] using this
  · have := fetchBytes_getD (length (s.mem.read s.pc) - 1) 1 (setPc (s.pc + 1) s) (by omega)
    simpa [fetch8, setPc, e2] using this
  · have e := addr_succ s.pc (length (s.mem.read s.pc) - 1)
    rw [Nat.sub_add_cancel hpos] at e
    simp only [fetchBy, fetchBytes_state, fetch8, setPc, busRead_eq, ← e]
    rfl

/-- An operand byte past the instruction's length takes no part in it. -/
theorem instrOfBytes_congr {op b1 b2 c1 c2 : Byte} (h1 : 2 ≤ opcodeLength op → b1 = c1) (h2 : 3 ≤ opcodeLength op → b2 = c2) :
    instrOfBytes op b1 b2 = instrOfBytes op c1 c2 := by
  by_cases hu : (dispatch op).mnemonic = .undef
  · simp [instrOfBytes, hu, assemble]
  · have hm : (dispatch op).mode ∈ (dispatch op).mnemonic.modes := by
      obtain h | h := dispatch_mem_or_undefined op
      · exact (mode_mem_of_mem _ h).2
      · exact absurd (by rw [dispatch_undefined h]; rfl) hu
    simp only [opcodeLength_eq, lengthOf_eq, if_neg hu] at h1 h2
    unfold instrOfBytes
    cases hmode : (dispatch op).mode <;> rw [hmode] at h1 h2 hm <;> simp [Mode.operandBytes] at h1 h2 <;>
      (try subst h1) <;> (try subst h2) <;> (try rfl) <;>
      (cases hmn : (dispatch op).mnemonic <;> rw [hmn] at hm <;> first | rfl | (simp [Mnemonic.modes] at hm))

/-- What a fetch answers and leaves at the default parameters. -/
theorem fetchInstr_eq (s : State) :
    fetchInstr s =
      (instrOfBytes (s.mem.read s.pc) (s.mem.read (s.pc + 1)) (s.mem.read (s.pc + 2)),
        { s with pc := s.pc + BitVec.ofNat 16 (opcodeLength (s.mem.read s.pc)) }) :=
  fetchBy_eq (Params.opcodeLength_pos (Params.undefLen_pos Params.default_wf) _) fun _ _ _ _ => instrOfBytes_congr

/-- The length of a decoded instruction is that of its opcode byte. -/
theorem length_instrOfBytes (op b1 b2 : Byte) : (instrOfBytes op b1 b2).length = opcodeLength op := by
  obtain h | h := dispatch_mem_or_undefined op
  · simp only [instrOfBytes_eq, Instr.length, assemble_mnemonic, assemble_mode (mode_mem_of_mem _ h).2, opcodeLength_eq]
  · simp [instrOfBytes_eq, opcodeLength_eq, dispatch_undefined h, undefRow, Params.undefRow, assemble, Instr.length,
      Instr.mnemonic, lengthOf_eq]

/-- What a fetch answers is an instruction of the hardware. -/
theorem wf_instrOfBytes (op b1 b2 : Byte) : (instrOfBytes op b1 b2).wf = true := by
  obtain h | h := dispatch_mem_or_undefined op
  · have hm := mode_mem_of_mem _ h
    rw [instrOfBytes_eq, wf_iff_of_ne_undef (by simpa using hm.1), assemble_mnemonic, assemble_mode hm.2]
    exact hm.2
  · rw [instrOfBytes_eq, dispatch_undefined h]
    exact (undef_wf_iff op).mpr h

/-! ## The operand (40_addressing_modes.md R100) -/

/-- The forms that have an effective address. -/
theorem storeAddr_eq_some {o : Operand} {s : State} {ea : Addr} (h : storeAddr o s = some ea) :
    resolve o s = .memory ea := by
  cases o <;> simp_all [storeAddr, resolve]

/-- The modes of operands that lie in memory. -/
theorem storeAddr_isSome {o : Operand} (h : o.mode ∉ [Mode.imp, .acc, .imm, .rel]) (s : State) :
    ∃ ea, storeAddr o s = some ea := by
  cases o <;> simp_all [storeAddr, resolve, Operand.mode]

theorem operandValue_of_storeAddr {o : Operand} {s : State} {ea : Addr} (h : storeAddr o s = some ea) :
    operandValue o s = s.mem.read ea := by
  simp [operandValue, storeAddr_eq_some h, readResolved]

theorem writeOperand_of_storeAddr {o : Operand} {s : State} {ea : Addr} (h : storeAddr o s = some ea) (v : Byte) :
    writeOperand o v s = { s with mem := s.mem.write ea v } := by
  simp [writeOperand, storeAddr_eq_some h, writeResolved, busWrite]

@[simp] theorem operandValue_acc (s : State) : operandValue .acc s = s.a := rfl
@[simp] theorem operandValue_imm (v : Byte) (s : State) : operandValue (.imm v) s = v := rfl
@[simp] theorem storeAddr_acc (s : State) : storeAddr .acc s = none := rfl
@[simp] theorem storeAddr_imm (v : Byte) (s : State) : storeAddr (.imm v) s = none := rfl
@[simp] theorem writeOperand_acc (v : Byte) (s : State) : writeOperand .acc v s = { s with a := v } := rfl
@[simp] theorem jumpResolved_abs (target : Addr) (s : State) :
    jumpResolved (resolve (.abs target) s) s = { s with pc := target } := rfl
@[simp] theorem jumpResolved_ind (pointer : Addr) (s : State) :
    jumpResolved (resolve (.ind pointer) s) s =
      { s with pc := word16 (s.mem.read (indirectHighAddr pointer)) (s.mem.read pointer) } := rfl

/-- What writing an operand changes: `A` for the accumulator form, one byte of memory for a form in memory, nothing else. -/
theorem writeOperand_frame (o : Operand) (v : Byte) (s : State) :
    (o = .acc ∧ writeOperand o v s = { s with a := v }) ∨
    (∃ ea, storeAddr o s = some ea ∧ writeOperand o v s = { s with mem := s.mem.write ea v }) ∨
    (o ≠ .acc ∧ storeAddr o s = none ∧ writeOperand o v s = s) := by
  cases o <;> simp [writeOperand, writeResolved, resolve, storeAddr, busWrite]

@[simp] theorem writeOperand_x (o : Operand) (v : Byte) (s : State) : (writeOperand o v s).x = s.x := by
  cases o <;> rfl
@[simp] theorem writeOperand_y (o : Operand) (v : Byte) (s : State) : (writeOperand o v s).y = s.y := by
  cases o <;> rfl
@[simp] theorem writeOperand_sp (o : Operand) (v : Byte) (s : State) : (writeOperand o v s).sp = s.sp := by
  cases o <;> rfl
@[simp] theorem writeOperand_pc (o : Operand) (v : Byte) (s : State) : (writeOperand o v s).pc = s.pc := by
  cases o <;> rfl
@[simp] theorem writeOperand_flags (o : Operand) (v : Byte) (s : State) : (writeOperand o v s).flags = s.flags := by
  cases o <;> rfl
@[simp] theorem writeOperand_cycleCount (o : Operand) (v : Byte) (s : State) : (writeOperand o v s).cycleCount = s.cycleCount := by
  cases o <;> rfl
@[simp] theorem writeOperand_nmiPending (o : Operand) (v : Byte) (s : State) : (writeOperand o v s).nmiPending = s.nmiPending := by
  cases o <;> rfl
@[simp] theorem writeOperand_irqPending (o : Operand) (v : Byte) (s : State) : (writeOperand o v s).irqPending = s.irqPending := by
  cases o <;> rfl

/-- Writing an operand leaves `A` alone unless the operand is `A`. -/
theorem writeOperand_a {o : Operand} (h : o ≠ .acc) (v : Byte) (s : State) : (writeOperand o v s).a = s.a := by
  cases o <;> first | rfl | exact absurd rfl h

/-- A shift of `A`. -/
theorem shiftOperand_acc (f : Byte → ShiftResult) (s : State) :
    shiftOperand f .acc s = { s with a := (f s.a).r, flags := shiftFlags (f s.a) s.flags } := rfl

/-- A shift of a byte of memory. -/
theorem shiftOperand_of_storeAddr {o : Operand} {s : State} {ea : Addr} (h : storeAddr o s = some ea) (f : Byte → ShiftResult) :
    shiftOperand f o s = { s with
      mem := s.mem.write ea (f (s.mem.read ea)).r, flags := shiftFlags (f (s.mem.read ea)) s.flags } := by
  simp [shiftOperand, writeOperand_of_storeAddr h, operandValue_of_storeAddr h, setFlags]

/-- The store of an increment or decrement. -/
theorem storeResult_of_storeAddr {o : Operand} {s : State} {ea : Addr} (h : storeAddr o s = some ea) (r : Byte) :
    storeResult o r s = { s with mem := s.mem.write ea r, flags := setZN r s.flags } := by
  simp [storeResult, writeOperand_of_storeAddr h, setFlags]

/-- The accumulator form belongs to the four shifts. -/
theorem operand_ne_acc {i : Instr} (h : i.wf = true) (hm : i.mnemonic ∉ [Mnemonic.asl, .lsr, .rol, .ror]) :
    i.operand ≠ .acc := by
  intro ho
  have hmode : i.mode = .acc := by rw [Instr.mode, ho]; rfl
  have hmem : i.mode ∈ i.mnemonic.modes := by
    simp only [Instr.wf, Bool.and_eq_true, List.contains_iff_mem] at h
    exact h.1
  rw [hmode] at hmem
  generalize i.mnemonic = m at *
  cases m <;> simp [Mnemonic.modes] at hmem hm

/-- An instruction that stores its operand and is no shift has it in memory. -/
theorem storeAddr_of_stores {i : Instr} (h : i.wf = true) (hm : i.mnemonic ∈ [Mnemonic.sta, .stx, .sty, .inc, .dec])
    (s : State) : ∃ ea, storeAddr i.operand s = some ea := by
  have hmem : i.mode ∈ i.mnemonic.modes := by
    simp only [Instr.wf, Bool.and_eq_true, List.contains_iff_mem] at h
    exact h.1
  refine storeAddr_isSome ?_ s
  rw [operand_mode]
  generalize i.mode = mode at *
  generalize i.mnemonic = m at *
  simp only [List.mem_cons, List.not_mem_nil, or_false] at hm
  rcases hm with rfl | rfl | rfl | rfl | rfl <;> revert mode <;> decide

/-! ## Completing an instruction -/

/-- An instruction under a charge, completed. -/
@[simp] theorem retire_some (c : Charge) (i : Instr) (s : State) (extra : Nat) (t : State) :
    retire (some c) i s extra t = .next (addCycles (c.base + c.pageExtra i.operand s + extra) t) := rfl

@[simp] theorem retire_none (i : Instr) (s : State) (extra : Nat) (t : State) :
    retire none i s extra t = .refused .noSuchForm := rfl

theorem chargeOf_of_wf {i : Instr} (h : i.wf = true) : chargeOf i = some ⟨baseCycles i, pageCrossExtra i⟩ := by
  simp [chargeOf, h]

theorem chargeOf_of_not_wf {i : Instr} (h : i.wf = false) : chargeOf i = none := by
  simp [chargeOf, h]

/-- An instruction of the hardware, completed. -/
theorem retire_of_wf {i : Instr} (h : i.wf = true) (s : State) (extra : Nat) (t : State) :
    retire (chargeOf i) i s extra t = .next (addCycles (baseCycles i + pageExtra i s + extra) t) := by
  rw [chargeOf_of_wf h]; rfl

theorem retire_of_not_wf {i : Instr} (h : i.wf = false) (s : State) (extra : Nat) (t : State) :
    retire (chargeOf i) i s extra t = .refused .noSuchForm := by
  rw [chargeOf_of_not_wf h]; rfl

/-- An instruction that completes is one of the hardware, and what completing adds. -/
theorem retire_eq_next {i : Instr} {s t u : State} {extra : Nat} :
    retire (chargeOf i) i s extra t = .next u ↔ i.wf = true ∧ u = addCycles (baseCycles i + pageExtra i s + extra) t := by
  cases h : i.wf
  · simp [retire_of_not_wf h]
  · simp [retire_of_wf h, eq_comm]

/-- Every meaning ends in `retire`. -/
theorem exec_eq_retire (i : Instr) (s : State) : ∃ extra t, exec i s = retire (chargeOf i) i s extra t := by
  cases i <;> exact ⟨_, _, rfl⟩

/-- Only an instruction of the hardware completes. -/
theorem wf_of_exec {i : Instr} {s t : State} (h : exec i s = .next t) : i.wf = true := by
  obtain ⟨extra, u, he⟩ := exec_eq_retire i s
  exact (retire_eq_next.mp (he ▸ h)).1

/-- A page-crossing cycle is paid by a flagged row only. -/
theorem pageExtra_eq_zero {i : Instr} (h : pageCrossExtra i = false) (s : State) : pageExtra i s = 0 := by
  simp [pageExtra, h]

/-- A page-crossing cycle is paid by a form that computes a crossing only. -/
theorem pageExtra_of_not_crossed {i : Instr} {s : State} (h : crossed i.operand s = false) : pageExtra i s = 0 := by
  simp [pageExtra, h]

/-! ## The two services (60_exceptions.md R225, R226) -/

@[simp] theorem serviceNMI_a (s : State) : (serviceNMI s).a = s.a := by simp [serviceNMI]
@[simp] theorem serviceNMI_x (s : State) : (serviceNMI s).x = s.x := by simp [serviceNMI]
@[simp] theorem serviceNMI_y (s : State) : (serviceNMI s).y = s.y := by simp [serviceNMI]
@[simp] theorem serviceNMI_sp (s : State) : (serviceNMI s).sp = s.sp - 3 := by simp [serviceNMI]
@[simp] theorem serviceNMI_pc (s : State) :
    (serviceNMI s).pc = (enterTrap s.pc (serviceStatus s.flags) nmiVector s).pc := rfl
@[simp] theorem serviceNMI_flags (s : State) : (serviceNMI s).flags = { s.flags with i := true } := rfl
@[simp] theorem serviceNMI_cycleCount (s : State) : (serviceNMI s).cycleCount = s.cycleCount + 7 := rfl
@[simp] theorem serviceNMI_nmiPending (s : State) : (serviceNMI s).nmiPending = false := rfl
@[simp] theorem serviceNMI_irqPending (s : State) : (serviceNMI s).irqPending = s.irqPending := by simp [serviceNMI]
@[simp] theorem serviceNMI_mem (s : State) :
    (serviceNMI s).mem = (enterTrap s.pc (serviceStatus s.flags) nmiVector s).mem := rfl

@[simp] theorem serviceIRQ_a (s : State) : (serviceIRQ s).a = s.a := by simp [serviceIRQ]
@[simp] theorem serviceIRQ_x (s : State) : (serviceIRQ s).x = s.x := by simp [serviceIRQ]
@[simp] theorem serviceIRQ_y (s : State) : (serviceIRQ s).y = s.y := by simp [serviceIRQ]
@[simp] theorem serviceIRQ_sp (s : State) : (serviceIRQ s).sp = s.sp - 3 := by simp [serviceIRQ]
@[simp] theorem serviceIRQ_pc (s : State) :
    (serviceIRQ s).pc = (enterTrap s.pc (serviceStatus s.flags) irqVector s).pc := rfl
@[simp] theorem serviceIRQ_flags (s : State) : (serviceIRQ s).flags = { s.flags with i := true } := rfl
@[simp] theorem serviceIRQ_cycleCount (s : State) : (serviceIRQ s).cycleCount = s.cycleCount + 7 := rfl
@[simp] theorem serviceIRQ_nmiPending (s : State) : (serviceIRQ s).nmiPending = s.nmiPending := by simp [serviceIRQ]
@[simp] theorem serviceIRQ_irqPending (s : State) : (serviceIRQ s).irqPending = s.irqPending := by simp [serviceIRQ]
@[simp] theorem serviceIRQ_mem (s : State) :
    (serviceIRQ s).mem = (enterTrap s.pc (serviceStatus s.flags) irqVector s).mem := rfl

/-! ## The step (60_exceptions.md R223, R241) -/

/-- Everything a step can do: one of the two services, or the instruction at `PC`. -/
theorem step_cases (s : State) :
    (s.nmiPending = true ∧ step s = .next (serviceNMI s)) ∨
    (s.nmiPending = false ∧ s.irqPending = true ∧ s.flags.i = false ∧ step s = .next (serviceIRQ s)) ∨
    (s.nmiPending = false ∧ (s.irqPending = true → s.flags.i = true) ∧ step s = executeNext s) := by
  cases hn : s.nmiPending <;> cases hq : s.irqPending <;> cases hi : s.flags.i <;> simp [step, poll, hn, hq, hi]

/-- The instruction at `PC`, run. -/
theorem executeNext_eq (s : State) :
    executeNext s =
      exec (instrOfBytes (s.mem.read s.pc) (s.mem.read (s.pc + 1)) (s.mem.read (s.pc + 2)))
        { s with pc := s.pc + BitVec.ofNat 16 (opcodeLength (s.mem.read s.pc)) } := by
  rw [executeNext, fetchInstr_eq]

end Sys2Proof.Machine
end

