-- ==== Sys2Proof/Laws/Parametric.lean ====
section
/-! SUPPORT. The laws of the machine over its parameters: what a charge changes, what a step can do at any parameters, and
that the machine of `Sys2Proof/Machine/Step.lean` is the one at the defaults. -/

namespace Sys2Proof.Machine

/-! ## The charge -/

/-- Every meaning ends in `retire`, with a result that does not depend on the charge. -/
theorem execCharged_eq_retire (i : Instr) (s : State) :
    ∃ extra t, ∀ charge, execCharged charge i s = retire charge i s extra t := by
  cases i <;> exact ⟨_, _, fun _ => rfl⟩

/-- Without a charge there is no instruction. -/
@[simp] theorem execCharged_none (i : Instr) (s : State) : execCharged none i s = .refused .noSuchForm := by
  obtain ⟨extra, t, h⟩ := execCharged_eq_retire i s
  rw [h, retire_none]

/-- Under a charge every instruction completes. -/
theorem execCharged_some (c : Charge) (i : Instr) (s : State) : ∃ t, execCharged (some c) i s = .next t := by
  obtain ⟨extra, t, h⟩ := execCharged_eq_retire i s
  exact ⟨_, h _⟩

/-- `exec` is the instruction under its own charge at the default parameters. -/
theorem exec_eq_execCharged (i : Instr) (s : State) : exec i s = execCharged (chargeOf i) i s := by
  cases i <;> rfl

/-- Only the base and the page-crossing cycle of a charge count, and a charge may name their sum. -/
theorem execCharged_sum (c : Charge) (i : Instr) (s : State) :
    execCharged (some ⟨c.base + c.pageExtra i.operand s, false⟩) i s = execCharged (some c) i s := by
  obtain ⟨extra, t, h⟩ := execCharged_eq_retire i s
  rw [h, h, retire_some, retire_some]
  simp [Charge.pageExtra]

/-! ## Entries -/

/-- An entry runs exactly when its form gives its mnemonic's rule what it names. -/
theorem instrOfEntry_isSome (row : DispatchRow) (o : Operand) (s : State) :
    (instrOfEntry ⟨row, o⟩ s).isSome = row.mnemonic.admits o.mode := by
  obtain ⟨op, m, mode, base, cross⟩ := row
  cases m <;> first | rfl | (cases o <;> rfl)

/-- The form of a decoded entry gives its rule what it names when its row's does. -/
theorem admits_decoded {p : Params} (h : p.wf = true) (op b1 b2 : Byte) :
    (p.decoded op b1 b2).row.mnemonic.admits (p.decoded op b1 b2).operand.mode = true := by
  have ha := Params.admits_of_wf h op
  by_cases hu : (p.row op).mnemonic = .undef
  · simp [Params.decoded, hu, Mnemonic.admits]
  · simpa [Params.decoded, hu] using ha

/-- An entry of well-formed parameters completes. -/
theorem executeEntry_decoded {p : Params} (h : p.wf = true) (op b1 b2 : Byte) (s : State) :
    ∃ t, executeEntry p (p.decoded op b1 b2) s = .next t := by
  have hs : (instrOfEntry (p.decoded op b1 b2) s).isSome = true :=
    (instrOfEntry_isSome _ _ s).trans (admits_decoded h op b1 b2)
  obtain ⟨i, hi⟩ := Option.isSome_iff_exists.mp hs
  simp only [executeEntry, hi]
  exact execCharged_some _ _ _

/-- At the default parameters an entry runs as the instruction its bytes decode to. -/
theorem instrOfEntry_default (op b1 b2 : Byte) (s : State) :
    instrOfEntry (Params.default.decoded op b1 b2) s = some (instrOfBytes op b1 b2) := by
  have hrow : Params.default.row op = dispatch op := rfl
  rw [Params.decoded, hrow, instrOfBytes_eq]
  obtain h | h := dispatch_mem_or_undefined op
  · obtain ⟨hu, hm⟩ := mode_mem_of_mem _ h
    rw [if_neg hu]
    revert hu hm
    generalize dispatch op = row
    obtain ⟨op', m, mode, base, cross⟩ := row
    intro (hu : m ≠ .undef) (hm : mode ∈ m.modes)
    cases mode <;> cases m <;> first | rfl | exact absurd rfl hu | exact absurd hm (by decide)
  · rw [dispatch_undefined h]; rfl

/-- At the default parameters an entry has the charge of its instruction. -/
theorem chargeWith_default (op b1 b2 : Byte) :
    some (chargeWith Params.default (Params.default.row op)) = chargeOf (instrOfBytes op b1 b2) := by
  have hrow : Params.default.row op = dispatch op := rfl
  rw [hrow, chargeOf_of_wf (wf_instrOfBytes op b1 b2), chargeWith]
  obtain h | h := dispatch_mem_or_undefined op
  · have hm : (instrOfBytes op b1 b2).mnemonic = (dispatch op).mnemonic := assemble_mnemonic _ _ _ _ _
    have hmode : (instrOfBytes op b1 b2).mode = (dispatch op).mode := assemble_mode (mode_mem_of_mem _ h).2 _ _ _
    simp only [if_neg (mode_mem_of_mem _ h).1, baseCycles, pageCrossExtra, hm, hmode, rowFor_of_mem _ h]
  · rw [instrOfBytes_eq, dispatch_undefined h]; rfl

/-- At the default parameters an entry has the operand of its instruction. -/
theorem operand_default (op b1 b2 : Byte) : (Params.default.decoded op b1 b2).operand = (instrOfBytes op b1 b2).operand := by
  have hrow : Params.default.row op = dispatch op := rfl
  rw [Params.decoded, hrow, instrOfBytes_eq]
  obtain h | h := dispatch_mem_or_undefined op
  · rw [if_neg (mode_mem_of_mem _ h).1, assemble_operand (mode_mem_of_mem _ h).2]
  · rw [dispatch_undefined h]; rfl

/-- At the default parameters an entry is executed as its instruction. -/
theorem executeEntry_default (op b1 b2 : Byte) (s : State) :
    executeEntry Params.default (Params.default.decoded op b1 b2) s = exec (instrOfBytes op b1 b2) s := by
  rw [exec_eq_execCharged, ← chargeWith_default op b1 b2, ← execCharged_sum, ← operand_default]
  simp only [executeEntry, instrOfEntry_default]
  rfl

/-! ## The step -/

/-- What a fetch answers and leaves at any parameters. -/
theorem fetchInstrWith_eq {p : Params} (h : 1 ≤ p.undefLen) (s : State) :
    fetchInstrWith p s =
      (p.decoded (s.mem.read s.pc) (s.mem.read (s.pc + 1)) (s.mem.read (s.pc + 2)),
        { s with pc := s.pc + BitVec.ofNat 16 (p.opcodeLength (s.mem.read s.pc)) }) :=
  fetchBy_eq (p.opcodeLength_pos h _) fun _ _ _ _ => Params.decoded_congr

/-- The entry at `PC`, run at any parameters. -/
theorem executeNextWith_eq {p : Params} (h : 1 ≤ p.undefLen) (s : State) :
    executeNextWith p s =
      executeEntry p (p.decoded (s.mem.read s.pc) (s.mem.read (s.pc + 1)) (s.mem.read (s.pc + 2)))
        { s with pc := s.pc + BitVec.ofNat 16 (p.opcodeLength (s.mem.read s.pc)) } := by
  rw [executeNextWith, fetchInstrWith_eq h]

/-- Everything a step can do at any parameters. -/
theorem stepWith_cases (p : Params) (s : State) :
    (s.nmiPending = true ∧ stepWith p s = .next (serviceNMI s)) ∨
    (s.nmiPending = false ∧ s.irqPending = true ∧ s.flags.i = false ∧ stepWith p s = .next (serviceIRQ s)) ∨
    (s.nmiPending = false ∧ (s.irqPending = true → s.flags.i = true) ∧ stepWith p s = executeNextWith p s) := by
  cases hn : s.nmiPending <;> cases hq : s.irqPending <;> cases hi : s.flags.i <;> simp [stepWith, poll, hn, hq, hi]

/-- The instruction at `PC`, run at the default parameters. -/
theorem executeNext_eq_executeNextWith (s : State) : executeNext s = executeNextWith Params.default s := by
  rw [executeNext_eq, executeNextWith_eq (Params.undefLen_pos Params.default_wf), executeEntry_default]
  rfl

/-- The machine's step is the step at the default parameters. -/
theorem step_eq_stepWith : step = stepWith Params.default := by
  funext s
  cases h : poll s <;> simp [step, stepWith, h, executeNext_eq_executeNextWith]

/-! ## What follows the step -/

/-- A run is its first move and then the rest of the run. -/
theorem hostRunBy_cons (stepper : State → Host.Outcome State Fault Refusal) (move : HostMove) (rest : List HostMove) (s : State) :
    hostRunBy stepper (move :: rest) s =
      match hostMoveBy stepper move s with
      | .next t => hostRunBy stepper rest t
      | .fault r => .fault r
      | .refused r => .refused r := rfl

theorem stepCycles_eq (s : State) : stepCycles s = stepCyclesWith Params.default s := by
  rw [stepCycles, stepCyclesWith, step_eq_stepWith]

theorem entryBus_default (op b1 b2 : Byte) (s : State) :
    entryBus (Params.default.decoded op b1 b2) s = instrBus (instrOfBytes op b1 b2) s := by
  simp only [entryBus, instrOfEntry_default, operand_default, if_true]

theorem stepBus_eq (s : State) : stepBus s = stepBusWith Params.default s := by
  cases h : poll s <;> simp only [stepBus, stepBusWith, h]
  rw [fetchInstr_eq, fetchInstrWith_eq (Params.undefLen_pos Params.default_wf), entryBus_default]
  rfl

theorem hostMove_eq (move : HostMove) (s : State) : hostMove move s = hostMoveWith Params.default move s := by
  rw [hostMove, hostMoveWith, step_eq_stepWith]

theorem hostRun_eq (moves : List HostMove) (s : State) : hostRun moves s = hostRunWith Params.default moves s := by
  rw [hostRun, hostRunWith, step_eq_stepWith]

end Sys2Proof.Machine
end

