-- ==== Sys2Proof/Laws/PerInstr.lean ====
section
/-! SUPPORT. Laws made per instruction. `EncodedLength`: the bytes of a well-formed instruction are as many as its length
says, one to three (30_encoding.md R81, R83). -/

/-- The encoding of a well-formed instruction has the instruction's length, which is 1, 2 or 3 bytes. -/
def Sys2Proof.Laws.EncodedLength.Statement (i : Sys2Proof.Instr) : Prop :=
  i.wf = true → (Sys2Proof.encode i).length = i.length ∧ 1 ≤ i.length ∧ i.length ≤ 3

/-- The law for an instruction that has a row of the opcode map. -/
theorem Sys2Proof.Laws.EncodedLength.of_row {i : Sys2Proof.Instr} (hne : i.mnemonic ≠ .undef) :
    Sys2Proof.Laws.EncodedLength.Statement i := by
  intro h
  obtain ⟨r, hr⟩ := Sys2Proof.exists_row h hne
  have hb : i.mode.operandBytes ≤ 2 := by cases i.mode <;> simp [Sys2Proof.Mode.operandBytes]
  rw [Sys2Proof.encode_of_row hr, Sys2Proof.length_of_ne_undef hne, List.length_cons, Sys2Proof.operand_bytes_length,
    ← Sys2Proof.Instr.mode]
  omega

theorem Sys2Proof.Laws.EncodedLength.lda (o : Sys2Proof.Operand) : Sys2Proof.Laws.EncodedLength.Statement (.lda o) :=
  Sys2Proof.Laws.EncodedLength.of_row (by simp [Sys2Proof.Instr.mnemonic])
theorem Sys2Proof.Laws.EncodedLength.ldx (o : Sys2Proof.Operand) : Sys2Proof.Laws.EncodedLength.Statement (.ldx o) :=
  Sys2Proof.Laws.EncodedLength.of_row (by simp [Sys2Proof.Instr.mnemonic])
theorem Sys2Proof.Laws.EncodedLength.ldy (o : Sys2Proof.Operand) : Sys2Proof.Laws.EncodedLength.Statement (.ldy o) :=
  Sys2Proof.Laws.EncodedLength.of_row (by simp [Sys2Proof.Instr.mnemonic])
theorem Sys2Proof.Laws.EncodedLength.sta (o : Sys2Proof.Operand) : Sys2Proof.Laws.EncodedLength.Statement (.sta o) :=
  Sys2Proof.Laws.EncodedLength.of_row (by simp [Sys2Proof.Instr.mnemonic])
theorem Sys2Proof.Laws.EncodedLength.stx (o : Sys2Proof.Operand) : Sys2Proof.Laws.EncodedLength.Statement (.stx o) :=
  Sys2Proof.Laws.EncodedLength.of_row (by simp [Sys2Proof.Instr.mnemonic])
theorem Sys2Proof.Laws.EncodedLength.sty (o : Sys2Proof.Operand) : Sys2Proof.Laws.EncodedLength.Statement (.sty o) :=
  Sys2Proof.Laws.EncodedLength.of_row (by simp [Sys2Proof.Instr.mnemonic])
theorem Sys2Proof.Laws.EncodedLength.tax : Sys2Proof.Laws.EncodedLength.Statement .tax :=
  Sys2Proof.Laws.EncodedLength.of_row (by simp [Sys2Proof.Instr.mnemonic])
theorem Sys2Proof.Laws.EncodedLength.tay : Sys2Proof.Laws.EncodedLength.Statement .tay :=
  Sys2Proof.Laws.EncodedLength.of_row (by simp [Sys2Proof.Instr.mnemonic])
theorem Sys2Proof.Laws.EncodedLength.txa : Sys2Proof.Laws.EncodedLength.Statement .txa :=
  Sys2Proof.Laws.EncodedLength.of_row (by simp [Sys2Proof.Instr.mnemonic])
theorem Sys2Proof.Laws.EncodedLength.tya : Sys2Proof.Laws.EncodedLength.Statement .tya :=
  Sys2Proof.Laws.EncodedLength.of_row (by simp [Sys2Proof.Instr.mnemonic])
theorem Sys2Proof.Laws.EncodedLength.tsx : Sys2Proof.Laws.EncodedLength.Statement .tsx :=
  Sys2Proof.Laws.EncodedLength.of_row (by simp [Sys2Proof.Instr.mnemonic])
theorem Sys2Proof.Laws.EncodedLength.txs : Sys2Proof.Laws.EncodedLength.Statement .txs :=
  Sys2Proof.Laws.EncodedLength.of_row (by simp [Sys2Proof.Instr.mnemonic])
theorem Sys2Proof.Laws.EncodedLength.pha : Sys2Proof.Laws.EncodedLength.Statement .pha :=
  Sys2Proof.Laws.EncodedLength.of_row (by simp [Sys2Proof.Instr.mnemonic])
theorem Sys2Proof.Laws.EncodedLength.php : Sys2Proof.Laws.EncodedLength.Statement .php :=
  Sys2Proof.Laws.EncodedLength.of_row (by simp [Sys2Proof.Instr.mnemonic])
theorem Sys2Proof.Laws.EncodedLength.pla : Sys2Proof.Laws.EncodedLength.Statement .pla :=
  Sys2Proof.Laws.EncodedLength.of_row (by simp [Sys2Proof.Instr.mnemonic])
theorem Sys2Proof.Laws.EncodedLength.plp : Sys2Proof.Laws.EncodedLength.Statement .plp :=
  Sys2Proof.Laws.EncodedLength.of_row (by simp [Sys2Proof.Instr.mnemonic])
theorem Sys2Proof.Laws.EncodedLength.and (o : Sys2Proof.Operand) : Sys2Proof.Laws.EncodedLength.Statement (.and o) :=
  Sys2Proof.Laws.EncodedLength.of_row (by simp [Sys2Proof.Instr.mnemonic])
theorem Sys2Proof.Laws.EncodedLength.ora (o : Sys2Proof.Operand) : Sys2Proof.Laws.EncodedLength.Statement (.ora o) :=
  Sys2Proof.Laws.EncodedLength.of_row (by simp [Sys2Proof.Instr.mnemonic])
theorem Sys2Proof.Laws.EncodedLength.eor (o : Sys2Proof.Operand) : Sys2Proof.Laws.EncodedLength.Statement (.eor o) :=
  Sys2Proof.Laws.EncodedLength.of_row (by simp [Sys2Proof.Instr.mnemonic])
theorem Sys2Proof.Laws.EncodedLength.bit (o : Sys2Proof.Operand) : Sys2Proof.Laws.EncodedLength.Statement (.bit o) :=
  Sys2Proof.Laws.EncodedLength.of_row (by simp [Sys2Proof.Instr.mnemonic])
theorem Sys2Proof.Laws.EncodedLength.asl (o : Sys2Proof.Operand) : Sys2Proof.Laws.EncodedLength.Statement (.asl o) :=
  Sys2Proof.Laws.EncodedLength.of_row (by simp [Sys2Proof.Instr.mnemonic])
theorem Sys2Proof.Laws.EncodedLength.lsr (o : Sys2Proof.Operand) : Sys2Proof.Laws.EncodedLength.Statement (.lsr o) :=
  Sys2Proof.Laws.EncodedLength.of_row (by simp [Sys2Proof.Instr.mnemonic])
theorem Sys2Proof.Laws.EncodedLength.rol (o : Sys2Proof.Operand) : Sys2Proof.Laws.EncodedLength.Statement (.rol o) :=
  Sys2Proof.Laws.EncodedLength.of_row (by simp [Sys2Proof.Instr.mnemonic])
theorem Sys2Proof.Laws.EncodedLength.ror (o : Sys2Proof.Operand) : Sys2Proof.Laws.EncodedLength.Statement (.ror o) :=
  Sys2Proof.Laws.EncodedLength.of_row (by simp [Sys2Proof.Instr.mnemonic])
theorem Sys2Proof.Laws.EncodedLength.adc (o : Sys2Proof.Operand) : Sys2Proof.Laws.EncodedLength.Statement (.adc o) :=
  Sys2Proof.Laws.EncodedLength.of_row (by simp [Sys2Proof.Instr.mnemonic])
theorem Sys2Proof.Laws.EncodedLength.sbc (o : Sys2Proof.Operand) : Sys2Proof.Laws.EncodedLength.Statement (.sbc o) :=
  Sys2Proof.Laws.EncodedLength.of_row (by simp [Sys2Proof.Instr.mnemonic])
theorem Sys2Proof.Laws.EncodedLength.cmp (o : Sys2Proof.Operand) : Sys2Proof.Laws.EncodedLength.Statement (.cmp o) :=
  Sys2Proof.Laws.EncodedLength.of_row (by simp [Sys2Proof.Instr.mnemonic])
theorem Sys2Proof.Laws.EncodedLength.cpx (o : Sys2Proof.Operand) : Sys2Proof.Laws.EncodedLength.Statement (.cpx o) :=
  Sys2Proof.Laws.EncodedLength.of_row (by simp [Sys2Proof.Instr.mnemonic])
theorem Sys2Proof.Laws.EncodedLength.cpy (o : Sys2Proof.Operand) : Sys2Proof.Laws.EncodedLength.Statement (.cpy o) :=
  Sys2Proof.Laws.EncodedLength.of_row (by simp [Sys2Proof.Instr.mnemonic])
theorem Sys2Proof.Laws.EncodedLength.inc (o : Sys2Proof.Operand) : Sys2Proof.Laws.EncodedLength.Statement (.inc o) :=
  Sys2Proof.Laws.EncodedLength.of_row (by simp [Sys2Proof.Instr.mnemonic])
theorem Sys2Proof.Laws.EncodedLength.dec (o : Sys2Proof.Operand) : Sys2Proof.Laws.EncodedLength.Statement (.dec o) :=
  Sys2Proof.Laws.EncodedLength.of_row (by simp [Sys2Proof.Instr.mnemonic])
theorem Sys2Proof.Laws.EncodedLength.inx : Sys2Proof.Laws.EncodedLength.Statement .inx :=
  Sys2Proof.Laws.EncodedLength.of_row (by simp [Sys2Proof.Instr.mnemonic])
theorem Sys2Proof.Laws.EncodedLength.iny : Sys2Proof.Laws.EncodedLength.Statement .iny :=
  Sys2Proof.Laws.EncodedLength.of_row (by simp [Sys2Proof.Instr.mnemonic])
theorem Sys2Proof.Laws.EncodedLength.dex : Sys2Proof.Laws.EncodedLength.Statement .dex :=
  Sys2Proof.Laws.EncodedLength.of_row (by simp [Sys2Proof.Instr.mnemonic])
theorem Sys2Proof.Laws.EncodedLength.dey : Sys2Proof.Laws.EncodedLength.Statement .dey :=
  Sys2Proof.Laws.EncodedLength.of_row (by simp [Sys2Proof.Instr.mnemonic])
theorem Sys2Proof.Laws.EncodedLength.jmp (o : Sys2Proof.Operand) : Sys2Proof.Laws.EncodedLength.Statement (.jmp o) :=
  Sys2Proof.Laws.EncodedLength.of_row (by simp [Sys2Proof.Instr.mnemonic])
theorem Sys2Proof.Laws.EncodedLength.jsr (target : Sys2Proof.Addr) : Sys2Proof.Laws.EncodedLength.Statement (.jsr target) :=
  Sys2Proof.Laws.EncodedLength.of_row (by simp [Sys2Proof.Instr.mnemonic])
theorem Sys2Proof.Laws.EncodedLength.rts : Sys2Proof.Laws.EncodedLength.Statement .rts :=
  Sys2Proof.Laws.EncodedLength.of_row (by simp [Sys2Proof.Instr.mnemonic])
theorem Sys2Proof.Laws.EncodedLength.bcc (offset : Sys2Proof.Byte) : Sys2Proof.Laws.EncodedLength.Statement (.bcc offset) :=
  Sys2Proof.Laws.EncodedLength.of_row (by simp [Sys2Proof.Instr.mnemonic])
theorem Sys2Proof.Laws.EncodedLength.bcs (offset : Sys2Proof.Byte) : Sys2Proof.Laws.EncodedLength.Statement (.bcs offset) :=
  Sys2Proof.Laws.EncodedLength.of_row (by simp [Sys2Proof.Instr.mnemonic])
theorem Sys2Proof.Laws.EncodedLength.beq (offset : Sys2Proof.Byte) : Sys2Proof.Laws.EncodedLength.Statement (.beq offset) :=
  Sys2Proof.Laws.EncodedLength.of_row (by simp [Sys2Proof.Instr.mnemonic])
theorem Sys2Proof.Laws.EncodedLength.bne (offset : Sys2Proof.Byte) : Sys2Proof.Laws.EncodedLength.Statement (.bne offset) :=
  Sys2Proof.Laws.EncodedLength.of_row (by simp [Sys2Proof.Instr.mnemonic])
theorem Sys2Proof.Laws.EncodedLength.bmi (offset : Sys2Proof.Byte) : Sys2Proof.Laws.EncodedLength.Statement (.bmi offset) :=
  Sys2Proof.Laws.EncodedLength.of_row (by simp [Sys2Proof.Instr.mnemonic])
theorem Sys2Proof.Laws.EncodedLength.bpl (offset : Sys2Proof.Byte) : Sys2Proof.Laws.EncodedLength.Statement (.bpl offset) :=
  Sys2Proof.Laws.EncodedLength.of_row (by simp [Sys2Proof.Instr.mnemonic])
theorem Sys2Proof.Laws.EncodedLength.bvc (offset : Sys2Proof.Byte) : Sys2Proof.Laws.EncodedLength.Statement (.bvc offset) :=
  Sys2Proof.Laws.EncodedLength.of_row (by simp [Sys2Proof.Instr.mnemonic])
theorem Sys2Proof.Laws.EncodedLength.bvs (offset : Sys2Proof.Byte) : Sys2Proof.Laws.EncodedLength.Statement (.bvs offset) :=
  Sys2Proof.Laws.EncodedLength.of_row (by simp [Sys2Proof.Instr.mnemonic])
theorem Sys2Proof.Laws.EncodedLength.clc : Sys2Proof.Laws.EncodedLength.Statement .clc :=
  Sys2Proof.Laws.EncodedLength.of_row (by simp [Sys2Proof.Instr.mnemonic])
theorem Sys2Proof.Laws.EncodedLength.cld : Sys2Proof.Laws.EncodedLength.Statement .cld :=
  Sys2Proof.Laws.EncodedLength.of_row (by simp [Sys2Proof.Instr.mnemonic])
theorem Sys2Proof.Laws.EncodedLength.cli : Sys2Proof.Laws.EncodedLength.Statement .cli :=
  Sys2Proof.Laws.EncodedLength.of_row (by simp [Sys2Proof.Instr.mnemonic])
theorem Sys2Proof.Laws.EncodedLength.clv : Sys2Proof.Laws.EncodedLength.Statement .clv :=
  Sys2Proof.Laws.EncodedLength.of_row (by simp [Sys2Proof.Instr.mnemonic])
theorem Sys2Proof.Laws.EncodedLength.sec : Sys2Proof.Laws.EncodedLength.Statement .sec :=
  Sys2Proof.Laws.EncodedLength.of_row (by simp [Sys2Proof.Instr.mnemonic])
theorem Sys2Proof.Laws.EncodedLength.sed : Sys2Proof.Laws.EncodedLength.Statement .sed :=
  Sys2Proof.Laws.EncodedLength.of_row (by simp [Sys2Proof.Instr.mnemonic])
theorem Sys2Proof.Laws.EncodedLength.sei : Sys2Proof.Laws.EncodedLength.Statement .sei :=
  Sys2Proof.Laws.EncodedLength.of_row (by simp [Sys2Proof.Instr.mnemonic])
theorem Sys2Proof.Laws.EncodedLength.nop : Sys2Proof.Laws.EncodedLength.Statement .nop :=
  Sys2Proof.Laws.EncodedLength.of_row (by simp [Sys2Proof.Instr.mnemonic])
theorem Sys2Proof.Laws.EncodedLength.brk : Sys2Proof.Laws.EncodedLength.Statement .brk :=
  Sys2Proof.Laws.EncodedLength.of_row (by simp [Sys2Proof.Instr.mnemonic])
theorem Sys2Proof.Laws.EncodedLength.rti : Sys2Proof.Laws.EncodedLength.Statement .rti :=
  Sys2Proof.Laws.EncodedLength.of_row (by simp [Sys2Proof.Instr.mnemonic])
theorem Sys2Proof.Laws.EncodedLength.undef (opcode : Sys2Proof.Byte) :
    Sys2Proof.Laws.EncodedLength.Statement (.undef opcode) := by
  intro h
  rw [Sys2Proof.encode_undef ((Sys2Proof.undef_wf_iff opcode).mp h)]
  exact ⟨rfl, Nat.le_refl 1, show 1 ≤ 3 by decide⟩
end

