-- ==== Sys2Proof/Tests/Slice0.lean ====
section
/-! SUPPORT. Tests: well-formedness refuses each kind of ill-formed term, every constructor is decoded from a word written
out from the opcode map, one step of every instruction against a vector of 95_test_vectors.md, and a witness for the
hypotheses of every obligation that has some. Every expected value is the spec's; the vector is named beside its test. -/

namespace Sys2Proof.Tests

open Sys2Proof Sys2Proof.Machine

/-! ## Well-formedness -/

/-- A term of every constructor that carries an operand, in a form the opcode map does not give it (30_encoding.md R85). -/
def illFormed : List Instr :=
  [.lda .acc, .ldx (.zpx 0), .ldy (.zpy 0), .sta (.imm 0), .stx (.absy 0), .sty (.absx 0), .and (.zpy 0), .ora .imp,
    .eor (.ind 0), .bit (.imm 0), .asl (.imm 0), .lsr (.absy 0), .rol (.indx 0), .ror (.indy 0)] ++
  [.adc (.rel 0), .sbc .acc, .cmp (.zpy 0), .cpx (.zpx 0), .cpy (.absy 0), .inc .acc, .dec (.zpy 0), .jmp (.absx 0)]

theorem test_wf_refuses_wrong_forms : illFormed.all (fun i => !i.wf) = true := by decide

theorem test_wf_refuses_an_assigned_byte_as_undefined : (Instr.undef 0xA9).wf = false := by decide

theorem test_wf_accepts : [Instr.lda (.indy 0xFF), .jmp (.ind 0x10FF), .ror .acc, .brk, .undef 0x02].all Instr.wf = true := by
  decide

theorem test_wf_says_what_exec_refuses : illFormed.all (fun i => match exec i State.reset with
    | .next _ => false
    | .fault _ => false
    | .refused r => r == .noSuchForm) = true := by decide

/-- The encoder gives no byte for a term the map gives no opcode. -/
theorem test_encode_of_ill_formed : illFormed.all (fun i => encode i == []) = true := by decide

/-! ## Decoding: the words of 30_encoding.md R85, opcode bytes in binary -/

/-- Each list of bytes is one whole instruction, and it is the one beside it. -/
def decodes (table : List (List Byte × Instr)) : Bool :=
  table.all fun row => match decode row.1 with
    | .ok (i, rest) => i == row.2 && rest == []
    | .error _ => false

theorem test_decode_load_store : decodes
    [([0b10101001, 0x44], .lda (.imm 0x44)), ([0b10100101, 0x44], .lda (.zp 0x44)),
      ([0b10110101, 0x44], .lda (.zpx 0x44)), ([0b10101101, 0x44, 0x12], .lda (.abs 0x1244)),
      ([0b10111101, 0x44, 0x12], .lda (.absx 0x1244)), ([0b10111001, 0x44, 0x12], .lda (.absy 0x1244)),
      ([0b10100001, 0x44], .lda (.indx 0x44)), ([0b10110001, 0x44], .lda (.indy 0x44)),
      ([0b10110110, 0x44], .ldx (.zpy 0x44)), ([0b10100000, 0x44], .ldy (.imm 0x44)),
      ([0b10010001, 0x44], .sta (.indy 0x44)), ([0b10010110, 0x44], .stx (.zpy 0x44)),
      ([0b10001100, 0x44, 0x12], .sty (.abs 0x1244))] = true := by decide

theorem test_decode_transfer_stack : decodes
    [([0b10101010], .tax), ([0b10101000], .tay), ([0b10001010], .txa), ([0b10011000], .tya), ([0b10111010], .tsx),
      ([0b10011010], .txs), ([0b01001000], .pha), ([0b00001000], .php), ([0b01101000], .pla), ([0b00101000], .plp)] = true := by
  decide

theorem test_decode_logical : decodes
    [([0b00100001, 0x44], .and (.indx 0x44)), ([0b00011101, 0x44, 0x12], .ora (.absx 0x1244)),
      ([0b01011001, 0x44, 0x12], .eor (.absy 0x1244)), ([0b00101100, 0x44, 0x12], .bit (.abs 0x1244))] = true := by
  decide

theorem test_decode_shift : decodes
    [([0b00001010], .asl .acc), ([0b01011110, 0x44, 0x12], .lsr (.absx 0x1244)),
      ([0b00100110, 0x44], .rol (.zp 0x44)), ([0b01110110, 0x44], .ror (.zpx 0x44))] = true := by decide

theorem test_decode_arithmetic : decodes
    [([0b01110001, 0x44], .adc (.indy 0x44)), ([0b11101001, 0x44], .sbc (.imm 0x44)),
      ([0b11011001, 0x44, 0x12], .cmp (.absy 0x1244)), ([0b11101100, 0x44, 0x12], .cpx (.abs 0x1244)),
      ([0b11000100, 0x44], .cpy (.zp 0x44))] = true := by decide

theorem test_decode_incdec : decodes
    [([0b11111110, 0x44, 0x12], .inc (.absx 0x1244)), ([0b11000110, 0x44], .dec (.zp 0x44)), ([0b11101000], .inx),
      ([0b11001000], .iny), ([0b11001010], .dex), ([0b10001000], .dey)] = true := by decide

theorem test_decode_jump_branch : decodes
    [([0b01001100, 0x44, 0x12], .jmp (.abs 0x1244)), ([0b01101100, 0x44, 0x12], .jmp (.ind 0x1244)),
      ([0b00100000, 0x44, 0x12], .jsr 0x1244), ([0b01100000], .rts), ([0b10010000, 0x44], .bcc 0x44),
      ([0b10110000, 0x44], .bcs 0x44), ([0b11110000, 0x44], .beq 0x44), ([0b11010000, 0x44], .bne 0x44),
      ([0b00110000, 0x44], .bmi 0x44), ([0b00010000, 0x44], .bpl 0x44), ([0b01010000, 0x44], .bvc 0x44),
      ([0b01110000, 0x44], .bvs 0x44)] = true := by decide

theorem test_decode_flag_system : decodes
    [([0b00011000], .clc), ([0b11011000], .cld), ([0b01011000], .cli), ([0b10111000], .clv), ([0b00111000], .sec),
      ([0b11111000], .sed), ([0b01111000], .sei), ([0b11101010], .nop), ([0b00000000], .brk), ([0b01000000], .rti),
      ([0b00000010], .undef 0x02), ([0b11111111], .undef 0xFF)] = true := by decide

/-- 30_encoding.md R84: the low byte comes first; R83: what follows is left over. -/
theorem test_decode_leaves_the_rest :
    (match decode [0xAD, 0x34, 0x12, 0xEA] with
      | .ok p => some p
      | .error _ => none) = some (.lda (.abs 0x1234), [0xEA]) := by decide

theorem test_decode_rejects_by_name :
    (match decode [] with
      | .ok _ => none
      | .error e => some e) = some DecodeError.noOpcode ∧
    (match decode [0xAD, 0x34] with
      | .ok _ => none
      | .error e => some e) = some (DecodeError.truncated 0xAD) := by decide

theorem test_table_word : decodeTableWord 24 0x1234AD = some (.lda (.abs 0x1234)) ∧ decodeTableWord 8 0xAD = some (.lda (.abs 0)) := by
  decide

/-! ## One step of each instruction (95_test_vectors.md) -/

/-- The reset state with `PC` at `0x8000`, where every vector's instruction stands. -/
def start : State := { State.reset with pc := 0x8000 }

/-- Bytes placed by the host. -/
def place (a : Addr) (bytes : List Byte) (s : State) : State := { s with mem := s.mem.load a bytes }

/-- The flags that unpack from a status byte, with the stored `U` as after reset. -/
def flagsOf (p : Byte) : Flags := { applyStatus p with u := true }

/-- Parameters other than the defaults: one assigned byte, a pairing the default map lacks, and undefined opcodes of 2 bytes
and 5 cycles (00_scope.md R7). -/
def otherParams : Params := { table := [⟨0x02, .ldx, .zpx, 9, true⟩], undefLen := 2, undefCycles := 5 }

/-- A table of pairings the default map lacks, and a row that names UNDEF. -/
def oddParams : Params :=
  { table := [⟨0x20, .jsr, .absx, 8, true⟩, ⟨0x0C, .nop, .abs, 4, false⟩, ⟨0x03, .inc, .imm, 4, false⟩,
      ⟨0x04, .jmp, .imm, 3, false⟩, ⟨0x02, .undef, .imp, 9, false⟩]
    undefLen := 2, undefCycles := 5 }

/-- What one step leaves, as far as `f` looks. -/
def after {α : Type} (s : State) (f : State → α) : Option α :=
  match step s with
  | .next t => some (f t)
  | .fault _ => none
  | .refused _ => none

/-- What one step at other parameters leaves, as far as `f` looks. -/
def afterWith {α : Type} (p : Params) (s : State) (f : State → α) : Option α :=
  match stepWith p s with
  | .next t => some (f t)
  | .fault _ => none
  | .refused _ => none

/-- With another table the byte `02` loads `X` from `$10,X` in 9 cycles, and no page is crossed (00_scope.md R7, 30_encoding.md
R80, 70_reset_and_hazards.md R270). -/
theorem test_other_table :
    afterWith otherParams { place 0x8000 [0x02, 0x10] (place 0x0015 [0x7E] start) with x := 0x05 }
      (fun t => (t.x, t.pc, t.cycleCount)) = some (0x7E, 0x8002, 9) := by decide

/-- With another `UNDEF_LEN` and `UNDEF_CYCLES` an unassigned byte is a no-op of 2 bytes and 5 cycles (30_encoding.md R87,
48_flags_nop_system.md R211). -/
theorem test_other_undefined :
    afterWith otherParams (place 0x8000 [0xE8] start) (fun t => (t.x, t.pc, t.cycleCount)) = some (0x00, 0x8002, 5) := by decide

/-- So is a byte whose row names UNDEF, whatever the row counts (30_encoding.md R91, 70_reset_and_hazards.md R270). -/
theorem test_undefined_row :
    afterWith oddParams (place 0x8000 [0x02] start) (fun t => (t.pc, t.cycleCount)) = some (0x8002, 5) := by decide

/-- JSR in the mode ABSX goes to its `ea` and pays the crossing (47_jump_branch.md R181, 40_addressing_modes.md R104, R116). -/
theorem test_jsr_absx :
    afterWith oddParams { place 0x8000 [0x20, 0xF0, 0x12] start with x := 0x10 }
      (fun t => (t.pc, t.mem.read 0x01FC, t.mem.read 0x01FB, t.cycleCount)) = some (0x1300, 0x80, 0x02, 9) := by decide

/-- NOP in the mode ABS takes its operand bytes and does nothing (48_flags_nop_system.md R207, 40_addressing_modes.md R114). -/
theorem test_nop_abs :
    afterWith oddParams (place 0x8000 [0x0C, 0x34, 0x12] start) (fun t => (t.pc, t.cycleCount)) = some (0x8003, 4) := by decide

/-- INC in the mode IMM increments the operand byte where it stands (46_incdec.md R170, 40_addressing_modes.md R109). -/
theorem test_inc_imm :
    afterWith oddParams (place 0x8000 [0x03, 0x7F] start) (fun t => (t.mem.read 0x8001, t.flags.n, t.pc)) =
      some (0x80, true, 0x8002) := by decide

theorem test_inc_imm_bus :
    stepBusWith oddParams (place 0x8000 [0x03, 0x7F] start) = [.rd 0x8000 0x03, .rd 0x8001 0x7F, .wr 0x8001 0x80] := by decide

/-- JMP in the mode IMM goes to the address of its operand byte (47_jump_branch.md R180, 40_addressing_modes.md R109). -/
theorem test_jmp_imm :
    afterWith oddParams (place 0x8000 [0x04, 0xEA] start) (fun t => (t.pc, t.cycleCount)) = some (0x8001, 3) := by decide

/-- A table that gives LDA no operand to read is no table of the machine (assumption log 32). -/
theorem test_params_wf_refuses :
    { otherParams with table := [⟨0xA9, .lda, .imp, 2, false⟩] }.wf = false ∧ { otherParams with undefLen := 0 }.wf = false := by decide

theorem test_lda_keeps_carry_and_overflow : -- V3.1
    after { place 0x8000 [0xA9, 0x00] start with a := 0x55, flags := flagsOf 0x61 }
      (fun t => (t.a, compose t.flags)) = some (0x00, 0x63) := by
  decide
theorem test_ldx_zpy_wraps : -- V2.6
    after { place 0x8000 [0xB6, 0xF0] (place 0x0110 [0x99] (place 0x0010 [0x33] start)) with y := 0x20 }
      (fun t => (t.x, t.cycleCount)) = some (0x33, 4) := by
  decide
theorem test_ldy_absx_pays_for_crossing : -- V2.14
    after { place 0x8000 [0xBC, 0xF0, 0x12] (place 0x1300 [0x7D] start) with x := 0x10 }
      (fun t => (t.y, t.cycleCount)) = some (0x7D, 5) := by
  decide
theorem test_sta_indy_pays_nothing : -- V2.29
    after { place 0x8000 [0x91, 0x20] (place 0x0020 [0xF8, 0x30] start) with a := 0x5C, y := 0x10 }
      (fun t => (t.mem.read 0x3108, t.cycleCount)) = some (0x5C, 6) := by
  decide
theorem test_stx_zpy : -- V3.18
    after { place 0x8000 [0x96, 0xF0] start with x := 0x7E, y := 0x20 }
      (fun t => (t.mem.read 0x0010, t.cycleCount)) = some (0x7E, 4) := by
  decide
theorem test_sty_sets_no_flag : -- V3.20
    after { place 0x8000 [0x84, 0x10] start with y := 0x80 }
      (fun t => (t.mem.read 0x0010, compose t.flags)) = some (0x80, 0x20) := by
  decide

theorem test_tax : -- V4.1
    after { place 0x8000 [0xAA] start with a := 0x80 } (fun t => (t.x, compose t.flags)) = some (0x80, 0xA0) := by
  decide
theorem test_tay : -- V4.3
    after { place 0x8000 [0xA8] start with y := 0x55 } (fun t => (t.y, compose t.flags)) = some (0x00, 0x22) := by
  decide
theorem test_txa : -- V4.5
    after { place 0x8000 [0x8A] start with a := 0xFF, x := 0x7F, flags := flagsOf 0xA0 }
      (fun t => (t.a, compose t.flags)) = some (0x7F, 0x20) := by
  decide
theorem test_tya : -- V4.6
    after { place 0x8000 [0x98] start with y := 0xFF } (fun t => (t.a, compose t.flags)) = some (0xFF, 0xA0) := by
  decide
theorem test_tsx : -- V4.7
    after (place 0x8000 [0xBA] start) (fun t => (t.x, compose t.flags)) = some (0xFD, 0xA0) := by decide
theorem test_txs_sets_no_flag : -- V4.9
    after { place 0x8000 [0x9A] start with x := 0xFF } (fun t => (t.sp, compose t.flags)) = some (0xFF, 0x20) := by
  decide
theorem test_pha_wraps : -- V4.12
    after { place 0x8000 [0x48] start with a := 0x42, sp := 0x00 }
      (fun t => (t.sp, t.mem.read 0x01FF, t.cycleCount)) = some (0xFF, 0x42, 3) := by
  decide
theorem test_php_pushes_the_stored_b : -- V4.15
    after { place 0x8000 [0x08] start with flags := flagsOf 0xCF }
      (fun t => (t.sp, t.mem.read 0x01FC)) = some (0xFC, 0xEF) := by
  decide
theorem test_pla_wraps : -- V4.19
    after { place 0x8000 [0x68] (place 0x01FF [0x80] start) with sp := 0xFF }
      (fun t => (t.a, t.sp, compose t.flags)) = some (0x80, 0x00, 0xA0) := by
  decide
theorem test_plp_loads_all_eight : -- V4.20
    after { place 0x8000 [0x28] (place 0x01FC [0xC3] start) with sp := 0xFC }
      (fun t => (t.sp, t.flags)) = some (0xFD, applyStatus 0xC3) := by
  decide

theorem test_and : -- V5.2
    after { place 0x8000 [0x29, 0x00] start with a := 0xFF, flags := flagsOf 0x61 }
      (fun t => (t.a, compose t.flags)) = some (0x00, 0x63) := by
  decide
theorem test_ora : -- V5.7
    after { place 0x8000 [0x0D, 0x00, 0x03] (place 0x0300 [0x01] start) with a := 0x10 }
      (fun t => (t.a, t.cycleCount)) = some (0x11, 4) := by
  decide
theorem test_eor : -- V5.8
    after { place 0x8000 [0x49, 0xFF] start with a := 0xAA } (fun t => (t.a, compose t.flags)) = some (0x55, 0x20) := by
  decide
theorem test_bit : -- V5.13
    after { place 0x8000 [0x24, 0x10] (place 0x0010 [0x3F] start) with a := 0xC0, flags := flagsOf 0xE1 }
      (fun t => (t.a, compose t.flags)) = some (0xC0, 0x23) := by
  decide

theorem test_asl_memory : -- V6.1
    after { place 0x8000 [0x06, 0x10] (place 0x0010 [0x80] start) with a := 0x55 }
      (fun t => (t.a, t.mem.read 0x0010, compose t.flags)) = some (0x55, 0x00, 0x23) := by
  decide
theorem test_asl_accumulator : -- V2.30
    after { place 0x8000 [0x0A] start with a := 0x41 }
      (fun t => (t.a, compose t.flags, t.cycleCount)) = some (0x82, 0xA0, 2) := by
  decide
theorem test_lsr_clears_n : -- V6.6
    after { place 0x8000 [0x4E, 0x00, 0x03] (place 0x0300 [0x01] start) with flags := flagsOf 0xA0 }
      (fun t => (t.mem.read 0x0300, compose t.flags)) = some (0x00, 0x23) := by
  decide
theorem test_rol : -- V6.7
    after { place 0x8000 [0x26, 0x10] (place 0x0010 [0x80] start) with flags := flagsOf 0x21 }
      (fun t => (t.mem.read 0x0010, compose t.flags)) = some (0x01, 0x21) := by
  decide
theorem test_ror : -- V6.10
    after { place 0x8000 [0x7E, 0x00, 0x03] (place 0x0305 [0x02] start) with x := 0x05, flags := flagsOf 0x21 }
      (fun t => (t.mem.read 0x0305, compose t.flags)) = some (0x81, 0xA0) := by
  decide

theorem test_adc_overflow : -- V7.2
    after { place 0x8000 [0x69, 0x90] start with a := 0xD0 } (fun t => (t.a, compose t.flags)) = some (0x60, 0x61) := by
  decide
theorem test_adc_is_binary_when_d_is_set : -- V7.6
    after { place 0x8000 [0x69, 0x01] start with a := 0x99, flags := flagsOf 0x28 }
      (fun t => (t.a, compose t.flags)) = some (0x9A, 0xA8) := by
  decide
theorem test_sbc_borrow_in : -- V7.12
    after { place 0x8000 [0xE9, 0x05] start with a := 0x05 } (fun t => (t.a, compose t.flags)) = some (0xFF, 0xA0) := by
  decide
theorem test_sbc_overflow : -- V7.8
    after { place 0x8000 [0xE9, 0xB0] start with a := 0x50, flags := flagsOf 0x21 }
      (fun t => (t.a, compose t.flags)) = some (0xA0, 0xE0) := by
  decide
theorem test_cmp : -- section 2.8, register 7F, m 80
    after { place 0x8000 [0xC9, 0x80] start with a := 0x7F } (fun t => (t.a, compose t.flags)) = some (0x7F, 0xA0) := by
  decide
theorem test_cpx : -- section 2.8, register 80, m 7F
    after { place 0x8000 [0xE0, 0x7F] start with x := 0x80 } (fun t => (t.x, compose t.flags)) = some (0x80, 0x21) := by
  decide
theorem test_cpy : -- 45_arithmetic_compare.md R166
    after { place 0x8000 [0xC0, 0x01] start with y := 0xFF } (fun t => (t.y, compose t.flags)) = some (0xFF, 0xA1) := by
  decide

theorem test_inc_crossing : -- V2.17
    after { place 0x8000 [0xFE, 0xF0, 0x12] (place 0x1310 [0x41] start) with x := 0x20 }
      (fun t => (t.mem.read 0x1310, t.cycleCount)) = some (0x42, 7) := by
  decide
theorem test_dec_to_zero : -- V9.5
    after (place 0x8000 [0xC6, 0x10] (place 0x0010 [0x01] start))
      (fun t => (t.mem.read 0x0010, compose t.flags)) = some (0x00, 0x22) := by
  decide
theorem test_inx_leaves_carry : -- V9.8
    after { place 0x8000 [0xE8] start with x := 0xFF } (fun t => (t.x, compose t.flags)) = some (0x00, 0x22) := by
  decide
theorem test_iny : -- V9.9
    after { place 0x8000 [0xC8] start with y := 0xFF } (fun t => (t.y, compose t.flags)) = some (0x00, 0x22) := by
  decide
theorem test_dex_wraps : -- V9.11
    after (place 0x8000 [0xCA] start) (fun t => (t.x, compose t.flags)) = some (0xFF, 0xA0) := by decide
theorem test_dey_wraps : -- V9.12
    after (place 0x8000 [0x88] start) (fun t => (t.y, compose t.flags)) = some (0xFF, 0xA0) := by decide

theorem test_jmp_absolute : -- V10.2
    after { place 0x8000 [0x4C, 0x34, 0x12] start with flags := flagsOf 0xA1 }
      (fun t => (t.pc, compose t.flags, t.cycleCount)) = some (0x1234, 0xA1, 3) := by
  decide
theorem test_jmp_indirect_erratum : -- V10.3, S5
    after (place 0x8000 [0x6C, 0xFF, 0x10] (place 0x1100 [0x56] (place 0x1000 [0x12] (place 0x10FF [0x34] start))))
      (fun t => (t.pc, t.cycleCount)) = some (0x1234, 5) := by
  decide
theorem test_jsr_wraps_between_its_pushes : -- V10.6
    after { place 0x8000 [0x20, 0x34, 0x12] start with sp := 0x01 }
      (fun t => (t.pc, t.sp, t.mem.read 0x0100, t.mem.read 0x01FF)) = some (0x1234, 0xFF, 0x80, 0x02) := by
  decide
theorem test_rts_wraps : -- V10.11
    after { place 0x8000 [0x60] (place 0x0100 [0x90] (place 0x01FF [0x10] start)) with sp := 0xFF }
      (fun t => (t.pc, t.sp)) = some (0x9011, 0x01) := by
  decide
theorem test_bcc : -- section 2.11, flag 0 and flag 1
    after (place 0x8000 [0x90, 0x10] start) (fun t => (t.pc, t.cycleCount)) = some (0x8012, 3) ∧
    after { place 0x8000 [0x90, 0x10] start with flags := flagsOf 0x21 } (fun t => (t.pc, t.cycleCount)) = some (0x8002, 2) := by
  decide
theorem test_bcs : -- section 2.11, flag 0 and flag 1
    after (place 0x8000 [0xB0, 0x10] start) (fun t => (t.pc, t.cycleCount)) = some (0x8002, 2) ∧
    after { place 0x8000 [0xB0, 0x10] start with flags := flagsOf 0x21 } (fun t => (t.pc, t.cycleCount)) = some (0x8012, 3) := by
  decide
theorem test_beq : -- section 2.11, flag 0 and flag 1
    after (place 0x8000 [0xF0, 0x10] start) (fun t => (t.pc, t.cycleCount)) = some (0x8002, 2) ∧
    after { place 0x8000 [0xF0, 0x10] start with flags := flagsOf 0x22 } (fun t => (t.pc, t.cycleCount)) = some (0x8012, 3) := by
  decide
theorem test_bne : -- section 2.11, flag 0 and flag 1
    after (place 0x8000 [0xD0, 0x10] start) (fun t => (t.pc, t.cycleCount)) = some (0x8012, 3) ∧
    after { place 0x8000 [0xD0, 0x10] start with flags := flagsOf 0x22 } (fun t => (t.pc, t.cycleCount)) = some (0x8002, 2) := by
  decide
theorem test_bmi : -- section 2.11, flag 0 and flag 1
    after (place 0x8000 [0x30, 0x10] start) (fun t => (t.pc, t.cycleCount)) = some (0x8002, 2) ∧
    after { place 0x8000 [0x30, 0x10] start with flags := flagsOf 0xA0 } (fun t => (t.pc, t.cycleCount)) = some (0x8012, 3) := by
  decide
theorem test_bpl : -- section 2.11, flag 0 and flag 1
    after (place 0x8000 [0x10, 0x10] start) (fun t => (t.pc, t.cycleCount)) = some (0x8012, 3) ∧
    after { place 0x8000 [0x10, 0x10] start with flags := flagsOf 0xA0 } (fun t => (t.pc, t.cycleCount)) = some (0x8002, 2) := by
  decide
theorem test_bvc : -- section 2.11, flag 0 and flag 1
    after (place 0x8000 [0x50, 0x10] start) (fun t => (t.pc, t.cycleCount)) = some (0x8012, 3) ∧
    after { place 0x8000 [0x50, 0x10] start with flags := flagsOf 0x60 } (fun t => (t.pc, t.cycleCount)) = some (0x8002, 2) := by
  decide
theorem test_bvs : -- section 2.11, flag 0 and flag 1
    after (place 0x8000 [0x70, 0x10] start) (fun t => (t.pc, t.cycleCount)) = some (0x8002, 2) ∧
    after { place 0x8000 [0x70, 0x10] start with flags := flagsOf 0x60 } (fun t => (t.pc, t.cycleCount)) = some (0x8012, 3) := by
  decide
theorem test_branch_pages : -- V11.5, V11.6, V11.1: the largest offsets, and the next instruction itself
    after (place 0x8000 [0xD0, 0x7F] start) (fun t => (t.pc, t.cycleCount)) = some (0x8081, 3) ∧
    after (place 0x8000 [0xD0, 0x80] start) (fun t => (t.pc, t.cycleCount)) = some (0x7F82, 4) ∧
    after (place 0x8000 [0xD0, 0x00] start) (fun t => (t.pc, t.cycleCount)) = some (0x8002, 3) := by
  decide

theorem test_clc : -- V12.1
    after { place 0x8000 [0x18] start with flags := flagsOf 0x21 } (fun t => compose t.flags) = some 0x20 := by decide
theorem test_cld : -- V12.3
    after { place 0x8000 [0xD8] start with flags := flagsOf 0x28 } (fun t => compose t.flags) = some 0x20 := by decide
theorem test_cli : -- V12.4
    after { place 0x8000 [0x58] start with flags := flagsOf 0x24 } (fun t => compose t.flags) = some 0x20 := by decide
theorem test_clv : -- V12.5
    after { place 0x8000 [0xB8] start with flags := flagsOf 0x60 } (fun t => compose t.flags) = some 0x20 := by decide
theorem test_sec : -- V12.9
    after { place 0x8000 [0x38] start with flags := flagsOf 0xEE } (fun t => compose t.flags) = some 0xEF := by decide
theorem test_sed : after (place 0x8000 [0xF8] start) (fun t => compose t.flags) = some 0x28 := by decide -- V12.7
theorem test_sei : after (place 0x8000 [0x78] start) (fun t => compose t.flags) = some 0x24 := by decide -- V12.8
theorem test_nop : -- V12.10
    after { place 0x8000 [0xEA] start with a := 0x11, flags := flagsOf 0xA1 }
      (fun t => (t.a, t.pc, compose t.flags, t.cycleCount)) = some (0x11, 0x8001, 0xA1, 2) := by
  decide
theorem test_undef_is_one_byte : -- V12.14
    after { place 0x8000 [0x9C] start with a := 0x11 }
      (fun t => (t.a, t.pc, t.cycleCount)) = some (0x11, 0x8001, 2) := by
  decide
theorem test_brk : -- V13.2
    after { place 0x8000 [0x00] (place 0xFFFE [0x00, 0x90] start) with flags := flagsOf 0xA1 }
      (fun t => (t.pc, t.sp, compose t.flags, t.cycleCount)) = some (0x9000, 0xFA, 0xA5, 7) := by
  decide
theorem test_brk_pushes : -- V13.2
    after { place 0x8000 [0x00] (place 0xFFFE [0x00, 0x90] start) with flags := flagsOf 0xA1 }
      (fun t => (t.mem.read 0x01FC, t.mem.read 0x01FB, t.mem.read 0x01FA)) = some (0x80, 0x02, 0xB1) := by
  decide
theorem test_rti : -- V13.9
    after { place 0x8000 [0x40] (place 0x01FA [0xCF, 0xFF, 0xFF] start) with sp := 0xFA }
      (fun t => (t.pc, t.sp, t.flags)) = some (0xFFFF, 0xFD, applyStatus 0xCF) := by
  decide

/-! ## Services, reset and the bus -/

/-- The memory of section 2.14: a NOP at each place a move can lead to, and the two vectors. -/
def served : State := place 0x8000 [0xEA, 0xEA] (place 0xFFFA [0x00, 0xA0] (place 0xFFFE [0x00, 0x90] start))

theorem test_nmi_service : -- V14.2
    after (raiseNmi { served with flags := flagsOf 0x24 }) (fun t => (t.pc, t.sp, t.mem.read 0x01FA, t.nmiPending, t.cycleCount)) =
      some (0xA000, 0xFA, 0x24, false, 7) := by decide

theorem test_irq_service : -- V14.4
    after (raiseIrq true served) (fun t => (t.pc, t.mem.read 0x01FA, compose t.flags, t.irqPending, t.cycleCount)) =
      some (0x9000, 0x20, 0x24, true, 7) := by decide

theorem test_irq_waits : -- V14.5
    after (raiseIrq true { served with flags := flagsOf 0x24 }) (fun t => (t.pc, t.irqPending, t.cycleCount)) =
      some (0x8001, true, 2) := by decide

theorem test_nmi_before_irq : -- V14.8
    after (raiseNmi (raiseIrq true served)) (fun t => (t.pc, t.nmiPending, t.irqPending)) = some (0xA000, false, true) := by
  decide

theorem test_reset : -- 70_reset_and_hazards.md R260, R262 and V14.11
    hostReset (place 0xFFFC [0x00, 0x80] { start with a := 1, sp := 2, flags := flagsOf 0xFF, nmiPending := true, cycleCount := 2 }) =
      place 0xFFFC [0x00, 0x80] { start with nmiPending := true, cycleCount := 2 } := by decide

theorem test_bus_of_inc : -- V2.17
    stepBus { place 0x8000 [0xFE, 0xF0, 0x12] (place 0x1310 [0x41] start) with x := 0x20 } =
      [.rd 0x8000 0xFE, .rd 0x8001 0xF0, .rd 0x8002 0x12, .rd 0x1310 0x41, .wr 0x1310 0x42] := by decide

theorem test_bus_of_brk : -- V13.1
    stepBus (place 0xFFFE [0x00, 0x90] start) =
      [.rd 0x8000 0x00, .wr 0x01FC 0x80, .wr 0x01FB 0x02, .wr 0x01FA 0x30, .rd 0xFFFE 0x00, .rd 0xFFFF 0x90] := by
  decide

theorem test_fetch_wraps : -- V2.2
    after { place 0xFFFF [0xA9, 0x5A] start with pc := 0xFFFF } (fun t => (t.a, t.pc)) = some (0x5A, 0x0001) := by
  decide

theorem test_fetch_word : -- the placed instruction runs, an interrupt held back
    after ((raiseNmi start).withFetchWord 24 0x1234AD) (fun t => (t.pc, t.cycleCount)) = some (0x8003, 4) := by decide

/-! ## Witnesses: states and operands that meet the hypotheses of the obligations, one theorem an obligation -/

theorem witness_LatchesHaveTheirWritersOnly :
    (∃ t, hostMove (.raiseIrq true) start = .next t ∧ t.irqPending ≠ start.irqPending) ∧
    (∃ t, hostMove .raiseNmi start = .next t ∧ start.nmiPending = false ∧ t.nmiPending = true) ∧
    (∃ t, hostMove .step (raiseNmi start) = .next t ∧ (raiseNmi start).nmiPending = true ∧ t.nmiPending = false) :=
  ⟨⟨_, rfl, by decide⟩, ⟨_, rfl, rfl, rfl⟩, ⟨_, rfl, rfl, rfl⟩⟩

/-- The load wraps past `0xFFFF`; `0x0001` is the first address it does not reach. -/
theorem witness_LoadMemoryPlacesBytes :
    [0x11, 0x22].length ≤ 65536 ∧ 1 < [0x11, 0x22].length ∧ (∀ k < 2, (0x0001 : Addr) ≠ 0xFFFF + BitVec.ofNat 16 k) := by
  decide

theorem witness_BusWritesOneByte : (0xFFFF : Addr) ≠ 0x0000 := by decide

theorem witness_CanonicalMemoryIsExtensional :
    Memory.wf [(0, 0x01), (65535, 0xFF)] = true ∧ ∀ a : Addr, Memory.read [(0, 0x01), (65535, 0xFF)] a = Memory.read [(0, 0x01), (65535, 0xFF)] a :=
  ⟨by decide, fun _ => rfl⟩

/-- A push at `SP = 0x00` stores to `0x01FF`; the byte just outside the page is another. -/
theorem witness_PushDecrementsThenWrites : (0x0200 : Addr) ≠ Claims.stackAt (push 0x42 { start with sp := 0x00 }).sp := by
  decide

theorem witness_DecodeOfEncode : (Instr.jmp (.ind 0xFFFF)).wf = true ∧ (Instr.undef 0xFF).wf = true ∧ Instr.brk.wf = true := by
  decide

theorem witness_EncodeOfDecode : ∃ i rest, decode [0xAD, 0x34, 0x12, 0xEA] = .ok (i, rest) := ⟨_, _, rfl⟩

theorem witness_EveryOpcodeByteDecodes : (0xFF : Byte) ∈ undefinedOpcodes ∧ (0xFE : Byte) ∉ undefinedOpcodes := by
  decide

theorem witness_OpcodeMapUnambiguous : (⟨0xA9, .lda, .imm, 2, false⟩ : DispatchRow) ∈ dispatchTable := by decide

/-- Both a clear latch and a raised one with `I` set let the instruction run. -/
theorem witness_StepRunsDecodedInstruction :
    (start.nmiPending = false ∧ (start.irqPending = true → start.flags.i = true) ∧
      ∃ i rest, decode [start.mem.read start.pc, start.mem.read (start.pc + 1), start.mem.read (start.pc + 2)] = .ok (i, rest)) ∧
    (let s := raiseIrq true { start with flags := flagsOf 0x24 };
      s.nmiPending = false ∧ s.irqPending = true ∧ s.flags.i = true ∧
      ∃ i rest, decode [s.mem.read s.pc, s.mem.read (s.pc + 1), s.mem.read (s.pc + 2)] = .ok (i, rest)) :=
  ⟨⟨rfl, fun h => absurd h (by decide), _, _, rfl⟩, ⟨rfl, rfl, rfl, _, _, rfl⟩⟩

/-- Other parameters, the shortest undefined opcode among them. -/
theorem witness_StepRunsDecodedInstruction_params :
    1 ≤ otherParams.undefLen ∧ 1 ≤ { otherParams with undefLen := 1 }.undefLen ∧ start.nmiPending = false ∧
    (start.irqPending = true → start.flags.i = true) := by decide

/-- An entry whose form gives its rule what it names, and one whose form does not. -/
theorem witness_StepRunsDecodedInstruction_entries :
    Mnemonic.jsr.admits .absx = true ∧ Mnemonic.nop.admits .rel = true ∧ Mnemonic.lda.admits .imp = false ∧
    Mnemonic.bne.admits .abs = false := by decide

theorem witness_EveryStepCompletes :
    otherParams.wf = true ∧ oddParams.wf = true ∧ { otherParams with table := [], undefLen := 1 }.wf = true := by decide

theorem witness_PlacedWordIsExecuted : decodeTableWord 24 0xFFFF6C = some (.jmp (.ind 0xFFFF)) ∧ decodeTableWord 8 0x00 = some .brk := by
  decide

theorem witness_NmiServiceEntersItsHandler : (raiseNmi { start with flags := flagsOf 0x24, sp := 0x01 }).nmiPending = true := by
  decide

theorem witness_StepServicesInterrupts :
    (raiseNmi start).nmiPending = true ∧
    (raiseIrq true start).nmiPending = false ∧ (raiseIrq true start).irqPending = true ∧ (raiseIrq true start).flags.i = false := by
  decide

theorem witness_StepKeepsMemoryCanonical : start.Inv ∧ ∃ t, step start = .next t := ⟨rfl, _, rfl⟩

theorem witness_HostRunsAreSafe : (place 0xFFFF [0x5A, 0xA5] start).Inv := by unfold State.Inv; decide

/-- A service, a storing instruction and a jump. -/
theorem witness_BusTransactionsReplayStep :
    (∃ t, step (raiseNmi start) = .next t) ∧ (∃ t, step (place 0x8000 [0xFE, 0xF0, 0x12] start) = .next t) ∧
    (∃ t, step (place 0x8000 [0x6C, 0xFF, 0x10] start) = .next t) := ⟨⟨_, rfl⟩, ⟨_, rfl⟩, ⟨_, rfl⟩⟩

theorem witness_DirectAndIndexedAddresses :
    (Operand.ind 0x10FF).mode ∉ [Mode.absx, .absy, .indy] ∧ (dispatch 0xB6).mode = .zpy ∧ (dispatch 0x96).mode = .zpy := by
  decide

theorem witness_IndirectPageWrapErratum : (0xFE : Byte) ≠ 0xFF ∧ (0xFF : Byte) = 0xFF ∧ (dispatch 0x6C).mode = .ind := by
  decide

theorem witness_ImmediateIsTheByteAtItsAddress :
    (fetchInstr { place 0xFFFF [0xA9, 0x5A] start with pc := 0xFFFF }).1.operand = .imm 0x5A := by decide

theorem witness_AddAndSubtractResults : (Instr.adc (.indy 0xFF)).wf = true ∧ (Instr.sbc (.imm 0x80)).wf = true := by
  decide

/-- The borrow comes in with `C` clear, and not with `C` set. -/
theorem witness_SubtractIsWithBorrow :
    (∃ t, exec (.sbc (.imm 0x05)) start = .next t) ∧
    (∃ t, exec (.sbc (.imm 0x05)) { start with flags := flagsOf 0x21 } = .next t) := ⟨⟨_, rfl⟩, ⟨_, rfl⟩⟩

theorem witness_CompareResults :
    (Instr.cmp (.indx 0xFF)).wf = true ∧ (Instr.cpx (.abs 0xFFFF)).wf = true ∧ (Instr.cpy (.zp 0x00)).wf = true := by
  decide

theorem witness_CompareAfterLoadIsEqual : ∃ t, exec (.lda (.absx 0xFFF0)) { start with x := 0x20 } = .next t := ⟨_, rfl⟩

theorem witness_LoadResults :
    (Instr.lda (.indy 0xFF)).wf = true ∧ (Instr.ldx (.zpy 0xFF)).wf = true ∧ (Instr.ldy (.absx 0xFFFF)).wf = true := by
  decide

theorem witness_StoreResults :
    (Instr.sta (.indx 0xFF)).wf = true ∧ (Instr.stx (.zpy 0xFF)).wf = true ∧ (Instr.sty (.zpx 0xFF)).wf = true := by
  decide

theorem witness_OperandValueByForm :
    storeAddr (.zpx 0xFF) { start with x := 0x02 } = some 0x0001 ∧ (Operand.indy 0xFF).mode ∉ [Mode.imp, .acc, .imm, .rel] := by
  decide

theorem witness_LogicalResults :
    (Instr.and (.imm 0)).wf = true ∧ (Instr.ora (.absy 0xFFFF)).wf = true ∧ (Instr.eor (.indx 0xFF)).wf = true ∧
    (Instr.bit (.zp 0xFF)).wf = true := by decide

/-- The accumulator form and a form in memory of each. -/
theorem witness_ShiftResults :
    (Instr.asl .acc).wf = true ∧ (Instr.lsr (.absx 0xFFFF)).wf = true ∧ (Instr.rol .acc).wf = true ∧ (Instr.ror (.zpx 0xFF)).wf = true ∧
    (Instr.asl (.zp 0)).wf = true ∧ (Instr.lsr .acc).wf = true ∧ (Instr.rol (.abs 0)).wf = true ∧ (Instr.ror .acc).wf = true := by
  decide

theorem witness_IncrementMemoryResults : (Instr.inc (.zpx 0xFF)).wf = true ∧ (Instr.dec (.absx 0xFFFF)).wf = true := by
  decide

/-- `SP = 0x01`: the two pushed bytes lie at the two ends of the stack page. -/
theorem witness_SubroutineRoundTrip : ∃ t, exec (.jsr 0x1234) { start with sp := 0x01 } = .next t := ⟨_, rfl⟩

/-- `PC_next = 0x8002`: offset `0x7F` stays in the page, `0x80` leaves it. -/
theorem witness_BranchResults :
    hiByte ((0x8002 : Addr) + (0x7F : Byte).signExtend 16) = hiByte (0x8002 : Addr) ∧
    hiByte ((0x8002 : Addr) + (0x80 : Byte).signExtend 16) ≠ hiByte (0x8002 : Addr) := by decide

theorem witness_FlagInstructionResults : (0x02 : Byte) ∈ undefinedOpcodes := by decide

theorem witness_ReturnUndoesTrapEntry :
    (poll (raiseNmi start) ≠ .executeInstruction ∧ ∃ t, step (raiseNmi start) = .next t) ∧
    (poll (raiseIrq true start) ≠ .executeInstruction ∧ ∃ t, step (raiseIrq true start) = .next t) ∧
    (∃ t, exec .brk { start with sp := 0x01 } = .next t) := ⟨⟨by decide, _, rfl⟩, ⟨by decide, _, rfl⟩, ⟨_, rfl⟩⟩

theorem witness_OnlyIllFormedTermsAreRefused : (Instr.sta (.imm 0)).wf = false ∧ (Instr.sta (.zp 0)).wf = true := by
  decide

/-- An instruction that stores once, one that stores three times, and one that stores nothing. -/
theorem witness_MemoryFrame :
    (∃ t, exec (.sta (.absx 0xFFFF)) { start with x := 0x01 } = .next t) ∧ 0x0001 ∉ Claims.storedTo (.sta (.absx 0xFFFF)) { start with x := 0x01 } ∧
    (∃ t, exec .brk start = .next t) ∧ (0x01FD : Addr) ∉ Claims.storedTo .brk start ∧
    (∃ t, exec (.asl .acc) start = .next t) ∧ Claims.storedTo (.asl .acc) start = [] :=
  ⟨⟨_, rfl⟩, by decide, ⟨_, rfl⟩, by decide, ⟨_, rfl⟩, by decide⟩

/-- NOP is outside every list; LDA is in the first only, and a shift of memory in none but as an accumulator form. -/
theorem witness_RegisterFrame :
    (∃ t, exec .nop start = .next t) ∧ (∃ t, exec (.lda (.imm 0)) start = .next t) ∧
    Instr.nop.mnemonic ∉ [Mnemonic.lda, .txa, .tya, .pla, .and, .ora, .eor, .adc, .sbc] ∧
    ¬ ((Instr.asl (.zp 0)).mnemonic ∈ [Mnemonic.asl, .lsr, .rol, .ror] ∧ (Instr.asl (.zp 0)).operand = .acc) ∧
    (Instr.lda (.imm 0)).mnemonic ∉ [Mnemonic.ldx, .tax, .tsx, .inx, .dex] ∧
    (Instr.lda (.imm 0)).mnemonic ∉ [Mnemonic.ldy, .tay, .iny, .dey] ∧
    (Instr.lda (.imm 0)).mnemonic ∉ [Mnemonic.txs, .pha, .php, .pla, .plp, .jsr, .rts, .brk, .rti] ∧
    (Instr.lda (.imm 0)).mnemonic ∉
      [Mnemonic.jmp, .jsr, .rts, .brk, .rti, .bcc, .bcs, .beq, .bne, .bmi, .bpl, .bvc, .bvs] :=
  ⟨⟨_, rfl⟩, ⟨_, rfl⟩, by decide, by decide, by decide, by decide, by decide, by decide⟩

/-- STA is outside every list. -/
theorem witness_FlagFrame :
    (∃ t, exec (.sta (.zp 0)) start = .next t) ∧
    (Instr.sta (.zp 0)).mnemonic ∉ [Mnemonic.adc, .sbc, .cmp, .cpx, .cpy, .asl, .lsr, .rol, .ror, .clc, .sec, .plp, .rti] ∧
    (Instr.sta (.zp 0)).mnemonic ∉ [Mnemonic.lda, .ldx, .ldy, .tax, .tay, .txa, .tya, .tsx, .pla, .and, .ora, .eor, .bit, .asl, .lsr,
      .rol, .ror, .adc, .sbc, .cmp, .cpx, .cpy, .inc, .dec, .inx, .iny, .dex, .dey, .plp, .rti] ∧
    (Instr.sta (.zp 0)).mnemonic ∉ [Mnemonic.sei, .cli, .plp, .rti, .brk] ∧
    (Instr.sta (.zp 0)).mnemonic ∉ [Mnemonic.sed, .cld, .plp, .rti] ∧
    (Instr.sta (.zp 0)).mnemonic ∉ [Mnemonic.adc, .sbc, .bit, .clv, .plp, .rti] :=
  ⟨⟨_, rfl⟩, by decide, by decide, by decide, by decide, by decide⟩

/-- The page is crossed and not crossed. -/
theorem witness_InstructionCycles :
    (∃ t, exec (.lda (.absx 0x12F0)) { start with x := 0x0F } = .next t) ∧
    (∃ t, exec (.lda (.absx 0x12F0)) { start with x := 0x10 } = .next t) ∧ (Instr.lda (.absx 0x12F0)).mode ≠ .rel ∧
    crossed (.absx 0x12F0) { start with x := 0x0F } = false ∧ crossed (.absx 0x12F0) { start with x := 0x10 } = true :=
  ⟨⟨_, rfl⟩, ⟨_, rfl⟩, by decide, by decide, by decide⟩

theorem witness_DecimalFlagHasNoEffect :
    (Instr.adc (.imm 0)).mnemonic ∉ [Mnemonic.php, .brk, .sed, .cld, .plp, .rti] ∧ Instr.plp.mnemonic ∈ [Mnemonic.sed, .cld, .plp, .rti] ∧
    Instr.php.mnemonic ∈ [Mnemonic.php, .brk] ∧ (∃ t, exec .php start = .next t) ∧
    (∃ u, exec .php (Claims.withD true start) = .next u) ∧ Instr.brk.mnemonic ∈ [Mnemonic.php, .brk] ∧
    (∃ t, exec .brk start = .next t) ∧ (∃ u, exec .brk (Claims.withD true start) = .next u) :=
  ⟨by decide, by decide, by decide, ⟨_, rfl⟩, ⟨_, rfl⟩, by decide, ⟨_, rfl⟩, ⟨_, rfl⟩⟩

theorem witness_StoredBreakAndUnusedGateNothing :
    Instr.brk.mnemonic ∉ [Mnemonic.php, .plp, .rti] ∧ Instr.php.mnemonic ∉ [Mnemonic.plp, .rti] := by decide

end Sys2Proof.Tests
end

/-! SUPPORT. The scope of the machine: every step runs what the bytes at `PC` decode to, completes, and counts 2 to 7
cycles (00_scope.md R7, 60_exceptions.md R223, R241, 70_reset_and_hazards.md R270). -/

namespace Sys2Proof.Machine

open Sys2Proof.Claims

/-! ## What completing an instruction counts -/

/-- `extra` of a branch is at most 2 (47_jump_branch.md R183). -/
theorem branchExtra_le_two (cond : Bool) (target pcNext : Addr) : branchExtra cond target pcNext ≤ 2 := by
  unfold branchExtra
  repeat' split
  all_goals omega

@[simp] theorem jumpResolved_cycleCount (r : Resolved) (s : State) : (jumpResolved r s).cycleCount = s.cycleCount := by
  cases r <;> rfl

/-- A branch ends in `retire` with at most 2 further cycles, on a state that has counted nothing yet. -/
theorem branch_eq_retire_counting (i : Instr) (cond : Bool) (offset : Byte) (s : State) :
    ∃ extra t, (∀ charge, branch charge i cond offset s = retire charge i s extra t) ∧ t.cycleCount = s.cycleCount ∧
      extra ≤ 2 := by
  refine ⟨_, _, fun _ => rfl, ?_, branchExtra_le_two _ _ _⟩
  cases cond <;> rfl

/-- Every meaning ends in `retire`, which alone counts: the state it completes has the cycles it started from, and only a
branch adds further ones. -/
theorem execCharged_eq_retire_counting (i : Instr) (s : State) :
    ∃ extra t, (∀ charge, execCharged charge i s = retire charge i s extra t) ∧ t.cycleCount = s.cycleCount ∧
      (i.mode ≠ .rel → extra = 0) ∧ extra ≤ 2 := by
  cases i
  case bcc offset | bcs offset | beq offset | bne offset | bmi offset | bpl offset | bvc offset | bvs offset =>
    obtain ⟨extra, t, hexec, hcount, hle⟩ := branch_eq_retire_counting _ _ offset s
    exact ⟨extra, t, hexec, hcount, fun hrel => absurd rfl hrel, hle⟩
  case sta | stx | sty | asl | lsr | rol | ror | inc | dec | jmp =>
    exact ⟨0, _, fun _ => rfl, by simp [shiftOperand, storeResult], fun _ => rfl, Nat.zero_le 2⟩
  all_goals exact ⟨0, _, fun _ => rfl, rfl, fun _ => rfl, Nat.zero_le 2⟩

/-- What an instruction of the hardware counts: its base, its page-crossing cycle, and the further cycles of a branch. -/
theorem exec_counts {i : Instr} (h : i.wf = true) (s : State) :
    ∃ extra t, exec i s = .next t ∧ t.cycleCount = s.cycleCount + (baseCycles i + pageExtra i s + extra) ∧
      (i.mode ≠ .rel → extra = 0) ∧ extra ≤ 2 := by
  obtain ⟨extra, t, hexec, hcount, hextra⟩ := execCharged_eq_retire_counting i s
  refine ⟨extra, addCycles (baseCycles i + pageExtra i s + extra) t, ?_, ?_, hextra⟩
  · rw [exec_eq_execCharged, hexec, retire_of_wf h]
  · rw [addCycles_cycleCount, hcount]

/-! ## The counts of the table (30_encoding.md R85, 40_addressing_modes.md R113) -/

/-- An instruction of the hardware has the counts of a row of the table, or is an undefined opcode. -/
theorem row_or_undef_of_wf {i : Instr} (h : i.wf = true) :
    (∃ r ∈ dispatchTable, i.mnemonic = r.mnemonic ∧ i.mode = r.mode ∧ baseCycles i = r.baseCycles ∧
      pageCrossExtra i = r.pageCrossExtra) ∨ ∃ op, i = .undef op := by
  by_cases hu : i.mnemonic = .undef
  · exact .inr ((mnemonic_eq_undef_iff i).mp hu)
  · obtain ⟨r, hr⟩ := exists_row h hu
    obtain ⟨hmem, hm, hmode⟩ := rowFor_some hr
    exact .inl ⟨r, hmem, hm.symm, hmode.symm, by rw [baseCycles, hr], by rw [pageCrossExtra, hr]⟩

/-- A row's base count lies between 2 and 7, and with the page-crossing cycle at most 7; a branch's row has 2 and no such
cycle. -/
theorem row_cycle_bounds : ∀ r ∈ dispatchTable, 2 ≤ r.baseCycles ∧ r.baseCycles + r.pageCrossExtra.toNat ≤ 7 ∧
    (r.mode = .rel → r.baseCycles = 2 ∧ r.pageCrossExtra = false) := by
  decide +kernel

theorem pageExtra_le (i : Instr) (s : State) : pageExtra i s ≤ (pageCrossExtra i).toNat := by
  cases h : pageCrossExtra i <;> cases hc : crossed i.operand s <;> simp [pageExtra, h, hc]

/-- An instruction of the hardware completes and counts 2 to 7 cycles. -/
theorem exec_counts_two_to_seven {i : Instr} (h : i.wf = true) (s : State) :
    ∃ t, exec i s = .next t ∧ s.cycleCount + 2 ≤ t.cycleCount ∧ t.cycleCount ≤ s.cycleCount + 7 := by
  obtain ⟨extra, t, hexec, hcount, hextra, hle⟩ := exec_counts h s
  have hpage := pageExtra_le i s
  refine ⟨t, hexec, ?_⟩
  obtain ⟨r, hr, -, hmode, hbase, hcross⟩ | ⟨op, rfl⟩ := row_or_undef_of_wf h
  · obtain ⟨hlow, hhigh, hrel⟩ := row_cycle_bounds r hr
    rw [hcross] at hpage
    by_cases hb : i.mode = .rel
    · obtain ⟨hb2, hnone⟩ := hrel (hmode ▸ hb)
      rw [hnone, Bool.toNat_false] at hpage
      omega
    · have := hextra hb
      omega
  · have hb : baseCycles (.undef op) = 2 := rfl
    have hp : pageExtra (.undef op) s = 0 := rfl
    omega

/-- A crossing is computed by the absolute indexed modes and (Indirect),Y only (40_addressing_modes.md R115). -/
theorem mode_of_crossed {o : Operand} {s : State} (h : crossed o s = true) : o.mode ∈ [Mode.absx, .absy, .indy] := by
  cases o <;> simp_all [crossed, Operand.mode]

/-- In a mode that computes a crossing, a row pays for it exactly when its mnemonic only reads. -/
theorem row_pageCross_iff : ∀ r ∈ dispatchTable, r.mode ∈ [Mode.absx, .absy, .indy] →
    (r.pageCrossExtra = true ↔ ReadsOnly r.mnemonic) := by
  decide +kernel

/-- `page_extra` by class: one cycle where an instruction that only reads crosses a page. -/
theorem pageExtra_eq_ite {i : Instr} (h : i.wf = true) (s : State) :
    pageExtra i s = if ReadsOnly i.mnemonic ∧ crossed i.operand s = true then 1 else 0 := by
  by_cases hc : crossed i.operand s = true
  · obtain ⟨r, hr, hm, hmode, -, hcross⟩ | ⟨op, rfl⟩ := row_or_undef_of_wf h
    · have hiff := row_pageCross_iff r hr (hmode ▸ mode_of_crossed hc)
      simp only [pageExtra, hc, hcross, hiff, hm, Bool.and_true, and_true]
    · cases hc
  · simp [pageExtra, hc]

/-- The base count by class depends on the mnemonic and the mode alone. -/
theorem cyclesByClass_congr {i j : Instr} (hm : i.mnemonic = j.mnemonic) (hmode : i.mode = j.mode) :
    cyclesByClass i = cyclesByClass j := by
  simp only [cyclesByClass, hm, hmode]

theorem row_baseCycles_byClass : ∀ r ∈ dispatchTable,
    r.mode ≠ .rel → r.baseCycles = cyclesByClass (assemble r.mnemonic r.mode r.opcode 0 0) := by
  decide +kernel

/-- The base count of an instruction that is no branch is that of its class and mode. -/
theorem baseCycles_eq_cyclesByClass {i : Instr} (h : i.wf = true) (hrel : i.mode ≠ .rel) :
    baseCycles i = cyclesByClass i := by
  obtain ⟨r, hr, hm, hmode, hbase, -⟩ | ⟨op, rfl⟩ := row_or_undef_of_wf h
  · rw [hbase, row_baseCycles_byClass r hr (hmode ▸ hrel)]
    refine cyclesByClass_congr ?_ ?_
    · rw [assemble_mnemonic, hm]
    · rw [assemble_mode (mode_mem_of_mem r hr).2, hmode]
  · rfl

/-! ## What a charge counts -/

theorem addCycles_addCycles (m n : Nat) (s : State) : addCycles m (addCycles n s) = addCycles (m + n) s := by
  simp only [addCycles, Nat.add_comm m, Nat.add_assoc]

/-- Under any charge an instruction does what it does under a charge of nothing and counts the charge. -/
theorem execCharged_eq_mapNext (c : Charge) (i : Instr) (s : State) :
    execCharged (some c) i s =
      mapNext (addCycles (c.base + c.pageExtra i.operand s)) (execCharged (some ⟨0, false⟩) i s) := by
  obtain ⟨extra, t, hexec⟩ := execCharged_eq_retire i s
  rw [hexec, hexec, retire_some, retire_some, mapNext, addCycles_addCycles]
  simp [Charge.pageExtra]

theorem Charge.pageExtra_eq_ite (c : Charge) (o : Operand) (s : State) :
    c.pageExtra o s = if c.pageCross = true ∧ crossed o s = true then 1 else 0 := by
  simp only [Charge.pageExtra, Bool.and_eq_true]

/-! ## The step with no service due -/

/-- The poll at a boundary where no service is due (60_exceptions.md R223). -/
theorem poll_of_no_service {s : State} (hn : s.nmiPending = false) (hq : s.irqPending = true → s.flags.i = true) :
    poll s = .executeInstruction := by
  cases hirq : s.irqPending
  · simp [poll, hn, hirq]
  · simp [poll, hn, hq hirq]

theorem step_of_poll {s : State} (h : poll s = .executeInstruction) : step s = executeNext s := by
  simp [step, h]

theorem stepWith_of_poll (p : Params) {s : State} (h : poll s = .executeInstruction) :
    stepWith p s = executeNextWith p s := by
  simp [stepWith, h]

/-- Executing an entry completes exactly when its form gives its mnemonic's rule what it names. -/
theorem executeEntry_cases (p : Params) (d : Decoded) (s : State) :
    (d.row.mnemonic.admits d.operand.mode = true ∧ ∃ t, executeEntry p d s = .next t) ∨
    (d.row.mnemonic.admits d.operand.mode = false ∧ executeEntry p d s = .refused .noSuchForm) := by
  rw [← instrOfEntry_isSome d.row d.operand s]
  cases h : instrOfEntry d s with
  | none => exact .inr ⟨rfl, by simp only [executeEntry, h]⟩
  | some i =>
    obtain ⟨t, ht⟩ := execCharged_some ⟨(chargeWith p d.row).base + (chargeWith p d.row).pageExtra d.operand s, false⟩ i s
    exact .inl ⟨rfl, t, by simp only [executeEntry, h, ht]⟩

/-! ## Every step completes -/

/-- A step completes and counts 2 to 7 cycles: a service 7, an instruction what `exec_counts_two_to_seven` says. -/
theorem step_counts_two_to_seven (s : State) :
    ∃ t, step s = .next t ∧ s.cycleCount + 2 ≤ t.cycleCount ∧ t.cycleCount ≤ s.cycleCount + 7 := by
  obtain ⟨-, hstep⟩ | ⟨-, -, -, hstep⟩ | ⟨-, -, hstep⟩ := step_cases s
  · exact ⟨_, hstep, by simp, by simp⟩
  · exact ⟨_, hstep, by simp, by simp⟩
  · rw [hstep, executeNext_eq]
    exact exec_counts_two_to_seven (wf_instrOfBytes _ _ _) _

/-- With well-formed parameters every step completes. -/
theorem stepWith_completes {p : Params} (h : p.wf = true) (s : State) : ∃ t, stepWith p s = .next t := by
  obtain ⟨-, hstep⟩ | ⟨-, -, -, hstep⟩ | ⟨-, -, hstep⟩ := stepWith_cases p s
  · exact ⟨_, hstep⟩
  · exact ⟨_, hstep⟩
  · rw [hstep, executeNextWith_eq (Params.undefLen_pos h)]
    exact executeEntry_decoded h _ _ _ _

end Sys2Proof.Machine

namespace Sys2Proof.Proofs

open Sys2Proof.Machine

/-- Settles O21: a service counts 7, an instruction its row's base, its page-crossing cycle and a branch's further cycles;
over well-formed parameters every entry has what its rule names. -/
theorem everyStepCompletes : Obligations.EveryStepCompletes := by
  refine ⟨fun s => ?_, fun p s h => stepWith_completes h s⟩
  obtain ⟨t, hstep, hlow, hhigh⟩ := step_counts_two_to_seven s
  refine ⟨t, hstep, hlow, hhigh, ?_⟩
  rw [stepCycles, hstep, cyclesGained]
  omega

/-- Settles O57: an instruction that completes is one of the hardware, and its row's counts are those of its class. -/
theorem instructionCycles : Obligations.InstructionCycles := by
  refine ⟨fun i s t h hrel => ?_, fun c i s => ?_⟩
  · have hwf := wf_of_exec h
    obtain ⟨extra, u, hexec, hcount, hextra, -⟩ := exec_counts hwf s
    cases hexec.symm.trans h
    rw [hcount, hextra hrel, baseCycles_eq_cyclesByClass hwf hrel, pageExtra_eq_ite hwf, Nat.add_zero, Nat.add_assoc]
  · rw [← Charge.pageExtra_eq_ite]
    exact execCharged_eq_mapNext c i s

/-- Settles O17: the fetch reads the bytes the decoder reads, and the decoder tells the length from the opcode byte. -/
theorem stepRunsDecodedInstruction : Obligations.StepRunsDecodedInstruction := by
  refine ⟨fun s i rest hn hq hdec => ?_, congrFun step_eq_stepWith, fun p s hlen hn hq => ?_, fun p d s => ?_⟩
  · obtain ⟨op, tail, hbytes, -, rfl, -⟩ := decode_eq_ok hdec
    cases hbytes
    rw [step_of_poll (poll_of_no_service hn hq), executeNext_eq, length_instrOfBytes]
    rfl
  · rw [stepWith_of_poll p (poll_of_no_service hn hq), executeNextWith_eq hlen]
  · obtain ⟨hadm, hrun⟩ | ⟨hadm, hrun⟩ := executeEntry_cases p d s
    · simpa [hadm] using hrun
    · simpa [hadm] using hrun

end Sys2Proof.Proofs

/-! SUPPORT. The state (10_state.md): the stack operations and the status byte, runs of host moves, the frames of the
registers and flags, and what no computation reads. -/

namespace Sys2Proof.Machine

open Sys2Proof.Claims

/-! ## What holds of every completed instruction -/

/-- What holds of the rule's result, however many cycles are counted on it, holds of the state an instruction completes in:
every meaning ends in `retire`. -/
theorem exec_next_of_rule {i : Instr} {s t : State} {P : State → Prop} (h : exec i s = .next t)
    (hcount : ∀ n r, P r → P (addCycles n r))
    (hrule : ∃ extra r, (∀ charge, execCharged charge i s = retire charge i s extra r) ∧ P r) : P t := by
  have hwf := wf_of_exec h
  obtain ⟨extra, r, hexec, hr⟩ := hrule
  rw [exec_eq_execCharged, hexec, retire_of_wf hwf] at h
  cases h
  exact hcount _ r hr

/-- A branch changes `PC` alone before its cycles are counted (47_jump_branch.md R183). -/
theorem branch_eq_retire_pc (i : Instr) (cond : Bool) (offset : Byte) (s : State) :
    ∃ extra pc, ∀ charge, branch charge i cond offset s = retire charge i s extra { s with pc := pc } := by
  cases cond
  · exact ⟨_, s.pc, fun _ => rfl⟩
  · exact ⟨_, branchTarget s.pc offset, fun _ => rfl⟩

/-- A jump or a branch changes `PC` alone (47_jump_branch.md R180, R183): what holds of `s` with any `PC` holds of its
rule's result. -/
theorem rule_of_pc_only {i : Instr} {s : State} {P : State → Prop}
    (hi : i.mnemonic ∈ [Mnemonic.jmp, .bcc, .bcs, .beq, .bne, .bmi, .bpl, .bvc, .bvs])
    (hP : ∀ pc, P { s with pc := pc }) :
    ∃ extra r, (∀ charge, execCharged charge i s = retire charge i s extra r) ∧ P r := by
  cases i
  case jmp o =>
    refine ⟨_, _, fun _ => rfl, ?_⟩
    cases resolve o s
    case memory ea => exact hP ea
    all_goals exact hP s.pc
  case bcc offset | bcs offset | beq offset | bne offset | bmi offset | bpl offset | bvc offset | bvs offset =>
    obtain ⟨extra, pc, hexec⟩ := branch_eq_retire_pc _ _ offset s
    exact ⟨_, _, hexec, hP pc⟩
  all_goals simp [Instr.mnemonic] at hi

/-! ## The stack and the status byte (10_state.md R22, R27, R28, R30, R31) -/

/-- The stack address as the statements write it. -/
theorem stackAt_eq_stackAddr (sp : Byte) : stackAt sp = stackAddr sp := (stackAddr_eq sp).symm

/-- The bits of `Compose()`, bit 5 whatever `U` is. -/
theorem compose_getLsbD (f : Flags) :
    (compose f).getLsbD 0 = f.c ∧ (compose f).getLsbD 1 = f.z ∧ (compose f).getLsbD 2 = f.i ∧
    (compose f).getLsbD 3 = f.d ∧ (compose f).getLsbD 4 = f.b ∧ (compose f).getLsbD 5 = true ∧
    (compose f).getLsbD 6 = f.v ∧ (compose f).getLsbD 7 = f.n := by
  simpa only [applyStatus, Flags.mk.injEq] using applyStatus_compose f

/-- The eight flags tell a status byte from every other. -/
theorem applyStatus_injective {v w : Byte} (h : applyStatus v = applyStatus w) : v = w := by
  simp only [applyStatus, Flags.mk.injEq] at h
  obtain ⟨h0, h1, h2, h3, h4, h5, h6, h7⟩ := h
  apply BitVec.eq_of_getLsbD_eq
  intro j hj
  interval_cases j <;> assumption

/-- `Compose()` after `Apply(v)` sets bit 5 and changes no other bit. -/
theorem compose_applyStatus (v : Byte) : compose (applyStatus v) = v ||| 0x20 := by
  apply applyStatus_injective
  rw [applyStatus_compose]
  simp [applyStatus]

/-- The status byte BRK pushes has bit 4 set whatever the stored `B` is. -/
theorem compose_or_break (f : Flags) (x : Bool) : compose { f with b := x } ||| 0x10 = compose f ||| 0x10 := by
  have h : ∀ c z i d b u v n x : Bool,
      compose ⟨c, z, i, d, x, u, v, n⟩ ||| 0x10 = compose ⟨c, z, i, d, b, u, v, n⟩ ||| 0x10 := by
    decide +kernel
  exact h f.c f.z f.i f.d f.b f.u f.v f.n x

/-- The pushes of a trap entry leave every byte outside the stack page alone (10_state.md R22). -/
theorem read_enterTrap_mem (ret : Addr) (status : Byte) (vector : Addr) (s : State) {a : Addr} (h : hiByte a ≠ stackPage) :
    (enterTrap ret status vector s).mem.read a = s.mem.read a := by
  have hne : ∀ sp, a ≠ stackAddr sp := fun sp heq => h (by rw [heq, stackAddr, hiByte_word16])
  rw [enterTrap_mem, Memory.read_write_of_ne _ _ (hne _), Memory.read_write_of_ne _ _ (hne _),
    Memory.read_write_of_ne _ _ (hne _)]

/-- A trap entry loads `PC` from its vector as it stood before the pushes. -/
theorem enterTrap_pc_of_vector (ret : Addr) (status : Byte) {vector : Addr} (s : State) (hlo : hiByte vector ≠ stackPage)
    (hhi : hiByte (vector + 1) ≠ stackPage) :
    (enterTrap ret status vector s).pc = word16 (s.mem.read (vector + 1)) (s.mem.read vector) := by
  rw [enterTrap_pc, read_enterTrap_mem _ _ _ _ hlo, read_enterTrap_mem _ _ _ _ hhi]

theorem enterTrap_nmiVector_pc (ret : Addr) (status : Byte) (s : State) :
    (enterTrap ret status nmiVector s).pc = word16 (s.mem.read (nmiVector + 1)) (s.mem.read nmiVector) :=
  enterTrap_pc_of_vector ret status s (by decide) (by decide)

theorem enterTrap_irqVector_pc (ret : Addr) (status : Byte) (s : State) :
    (enterTrap ret status irqVector s).pc = word16 (s.mem.read (irqVector + 1)) (s.mem.read irqVector) :=
  enterTrap_pc_of_vector ret status s (by decide) (by decide)

/-! ## What no computation reads (10_state.md R32, R40, R41, R42)

The stored `D`, `B` and `U` and `cycle_count` are updated together, so that one case analysis of the instructions serves
all four. -/

/-- An update of the stored `D`, `B` and `U`, each left alone at `none`, and of `cycle_count`. -/
structure HiddenUpdate where
  d : Option Bool
  b : Option Bool
  u : Option Bool
  cycles : Nat

/-- The state after a hidden update. -/
def HiddenUpdate.apply (h : HiddenUpdate) (s : State) : State :=
  { s with
    flags := { s.flags with d := h.d.getD s.flags.d, b := h.b.getD s.flags.b, u := h.u.getD s.flags.u }
    cycleCount := s.cycleCount + h.cycles }

theorem withD_eq_apply (x : Bool) : withD x = HiddenUpdate.apply ⟨some x, none, none, 0⟩ := rfl
theorem withB_eq_apply (x : Bool) : withB x = HiddenUpdate.apply ⟨none, some x, none, 0⟩ := rfl
theorem withU_eq_apply (x : Bool) : withU x = HiddenUpdate.apply ⟨none, none, some x, 0⟩ := rfl
theorem addCycles_eq_apply (k : Nat) : addCycles k = HiddenUpdate.apply ⟨none, none, none, k⟩ := rfl

namespace HiddenUpdate

variable (h : HiddenUpdate) (s : State)

@[simp] theorem resolve_apply (o : Operand) : resolve o (h.apply s) = resolve o s := by cases o <;> rfl
@[simp] theorem crossed_apply (o : Operand) : crossed o (h.apply s) = crossed o s := by cases o <;> rfl
@[simp] theorem operandValue_apply (o : Operand) : operandValue o (h.apply s) = operandValue o s := by cases o <;> rfl

theorem writeOperand_apply (o : Operand) (v : Byte) : writeOperand o v (h.apply s) = h.apply (writeOperand o v s) := by
  cases o <;> rfl

theorem storeResult_apply (o : Operand) (r : Byte) : storeResult o r (h.apply s) = h.apply (storeResult o r s) := by
  cases o <;> rfl

theorem shiftOperand_apply (f : Byte → ShiftResult) (o : Operand) :
    shiftOperand f o (h.apply s) = h.apply (shiftOperand f o s) := by
  cases o <;> rfl

theorem jumpResolved_apply (r : Resolved) : jumpResolved r (h.apply s) = h.apply (jumpResolved r s) := by
  cases r <;> rfl

theorem addCycles_apply (n : Nat) : addCycles n (h.apply s) = h.apply (addCycles n s) := by
  simp only [addCycles, apply, Nat.add_right_comm]

/-- An instruction completes the same way after a hidden update its rule's result keeps. -/
theorem retire_apply (charge : Option Charge) (i : Instr) (extra : Nat) {t t' : State} (ht : t' = h.apply t) :
    retire charge i (h.apply s) extra t' = mapNext h.apply (retire charge i s extra t) := by
  subst ht
  cases charge with
  | none => rfl
  | some c => simp only [retire_some, Charge.pageExtra, crossed_apply, addCycles_apply, mapNext]

theorem branch_apply (charge : Option Charge) (i : Instr) (cond : Bool) (offset : Byte) :
    branch charge i cond offset (h.apply s) = mapNext h.apply (branch charge i cond offset s) := by
  cases cond <;> exact retire_apply h s charge i _ rfl

/-- An instruction does the same after a hidden update and keeps it, if `D` is not updated under those that push or write
it, `B` under those that push or load it, and `U` under those that load it. -/
theorem exec_apply (i : Instr) (hd : i.mnemonic ∈ [Mnemonic.php, .brk, .sed, .cld, .plp, .rti] → h.d = none)
    (hb : i.mnemonic ∈ [Mnemonic.php, .plp, .rti] → h.b = none) (hu : i.mnemonic ∈ [Mnemonic.plp, .rti] → h.u = none) :
    exec i (h.apply s) = mapNext h.apply (exec i s) := by
  obtain ⟨d, b, u, k⟩ := h
  simp only [exec_eq_execCharged]
  generalize chargeOf i = charge
  cases i
  case lda | ldx | ldy | and | ora | eor | bit | adc | sbc | cmp | cpx | cpy =>
    exact retire_apply _ s _ _ _ (by rw [operandValue_apply]; rfl)
  case sta | stx | sty => exact retire_apply _ s _ _ _ (writeOperand_apply _ _ _ _)
  case asl | lsr | rol | ror => exact retire_apply _ s _ _ _ (shiftOperand_apply _ _ _ _)
  case inc | dec => exact retire_apply _ s _ _ _ (by rw [operandValue_apply, storeResult_apply])
  case jmp => exact retire_apply _ s _ _ _ (by rw [resolve_apply, jumpResolved_apply])
  case bcc | bcs | beq | bne | bmi | bpl | bvc | bvs => exact branch_apply _ s _ _ _ _
  case php =>
    obtain rfl : d = none := hd (by simp [Instr.mnemonic])
    obtain rfl : b = none := hb (by simp [Instr.mnemonic])
    exact retire_apply _ s _ _ _ rfl
  case brk =>
    obtain rfl : d = none := hd (by simp [Instr.mnemonic])
    have hstatus : compose (apply ⟨none, b, u, k⟩ s).flags ||| 0x10 = compose s.flags ||| 0x10 := compose_or_break s.flags _
    exact retire_apply _ s _ _ _ (by rw [hstatus]; rfl)
  case sed | cld =>
    obtain rfl : d = none := hd (by simp [Instr.mnemonic])
    exact retire_apply _ s _ _ _ rfl
  case plp | rti =>
    obtain rfl : d = none := hd (by simp [Instr.mnemonic])
    obtain rfl : b = none := hb (by simp [Instr.mnemonic])
    obtain rfl : u = none := hu (by simp [Instr.mnemonic])
    exact retire_apply _ s _ _ _ rfl
  all_goals exact retire_apply _ s _ _ _ rfl

end HiddenUpdate

theorem exec_withD {i : Instr} (hi : i.mnemonic ∉ [Mnemonic.php, .brk, .sed, .cld, .plp, .rti]) (x : Bool) (s : State) :
    exec i (withD x s) = mapNext (withD x) (exec i s) := by
  rw [withD_eq_apply]
  exact HiddenUpdate.exec_apply _ s i (fun hm => absurd hm hi) (fun _ => rfl) fun _ => rfl

theorem exec_withB {i : Instr} (hi : i.mnemonic ∉ [Mnemonic.php, .plp, .rti]) (x : Bool) (s : State) :
    exec i (withB x s) = mapNext (withB x) (exec i s) := by
  rw [withB_eq_apply]
  exact HiddenUpdate.exec_apply _ s i (fun _ => rfl) (fun hm => absurd hm hi) fun _ => rfl

theorem exec_withU {i : Instr} (hi : i.mnemonic ∉ [Mnemonic.plp, .rti]) (x : Bool) (s : State) :
    exec i (withU x s) = mapNext (withU x) (exec i s) := by
  rw [withU_eq_apply]
  exact HiddenUpdate.exec_apply _ s i (fun _ => rfl) (fun _ => rfl) fun hm => absurd hm hi

theorem exec_addCycles (k : Nat) (i : Instr) (s : State) : exec i (addCycles k s) = mapNext (addCycles k) (exec i s) := by
  rw [addCycles_eq_apply]
  exact HiddenUpdate.exec_apply _ s i (fun _ => rfl) (fun _ => rfl) fun _ => rfl

theorem executeNext_addCycles (k : Nat) (s : State) :
    executeNext (addCycles k s) = mapNext (addCycles k) (executeNext s) := by
  simp only [executeNext_eq, addCycles_mem, addCycles_pc, ← exec_addCycles]
  rfl

theorem addCycles_comm (m n : Nat) (s : State) : addCycles m (addCycles n s) = addCycles n (addCycles m s) := by
  rw [addCycles_addCycles, addCycles_addCycles, Nat.add_comm]

theorem serviceNMI_addCycles (k : Nat) (s : State) : serviceNMI (addCycles k s) = addCycles k (serviceNMI s) :=
  addCycles_comm serviceCycles k { enterTrap s.pc (serviceStatus s.flags) nmiVector s with nmiPending := false }

theorem serviceIRQ_addCycles (k : Nat) (s : State) : serviceIRQ (addCycles k s) = addCycles k (serviceIRQ s) :=
  addCycles_comm serviceCycles k (enterTrap s.pc (serviceStatus s.flags) irqVector s)

/-- PHP and BRK push the status byte, and `D` reaches nothing but the memory they leave. -/
theorem exec_pushing_withD {i : Instr} {s t u : State} {x : Bool} (hi : i.mnemonic ∈ [Mnemonic.php, .brk])
    (ht : exec i s = .next t) (hu : exec i (withD x s) = .next u) : { u with mem := t.mem } = withD x t := by
  cases i
  case php =>
    obtain rfl := Host.Outcome.next.inj ht
    obtain rfl := Host.Outcome.next.inj hu
    rfl
  case brk =>
    obtain rfl := Host.Outcome.next.inj ht
    obtain rfl := Host.Outcome.next.inj hu
    simp [withD, enterTrap_irqVector_pc, Charge.pageExtra, crossed, Instr.operand]
  all_goals simp [Instr.mnemonic] at hi

/-- SED, CLD, PLP and RTI write `D` without reading it. -/
theorem exec_writing_withD {i : Instr} {x : Bool} (hi : i.mnemonic ∈ [Mnemonic.sed, .cld, .plp, .rti]) (s : State) :
    exec i (withD x s) = exec i s := by
  cases i
  case sed | cld | plp | rti => rfl
  all_goals simp [Instr.mnemonic] at hi

/-! ## The canonical form of memory along a run (10_state.md R32, 60_exceptions.md R240, R241) -/

/-- An instruction keeps the canonical form of memory: it stores by pushes, by the trap entry, to its operand, or not at
all. -/
theorem wf_exec {i : Instr} {s t : State} (h : exec i s = .next t) (hs : s.mem.wf = true) : t.mem.wf = true := by
  apply exec_next_of_rule h fun _ _ hr => hr
  cases i
  case sta | stx | sty | asl | lsr | rol | ror | inc | dec => exact ⟨_, _, fun _ => rfl, wf_writeOperand hs _ _⟩
  case pha | php => exact ⟨_, _, fun _ => rfl, wf_push hs _⟩
  case jsr => exact ⟨_, _, fun _ => rfl, wf_push (wf_push hs _) _⟩
  case brk => exact ⟨_, _, fun _ => rfl, wf_enterTrap hs _ _ _⟩
  case jmp | bcc | bcs | beq | bne | bmi | bpl | bvc | bvs =>
    exact rule_of_pc_only (by simp [Instr.mnemonic]) fun _ => hs
  all_goals exact ⟨_, _, fun _ => rfl, hs⟩

/-- Every step keeps the invariant. -/
theorem inv_step {s t : State} (hs : s.Inv) (h : step s = .next t) : t.Inv := by
  obtain ⟨-, hstep⟩ | ⟨-, -, -, hstep⟩ | ⟨-, -, hstep⟩ := step_cases s
  · obtain rfl := Host.Outcome.next.inj (hstep.symm.trans h)
    rw [State.Inv, serviceNMI_mem]
    exact wf_enterTrap hs _ _ _
  · obtain rfl := Host.Outcome.next.inj (hstep.symm.trans h)
    rw [State.Inv, serviceIRQ_mem]
    exact wf_enterTrap hs _ _ _
  · rw [hstep, executeNext_eq] at h
    exact wf_exec h hs

/-- A move of the host is a safe run of one move. -/
theorem hostMove_safe (move : HostMove) {s : State} (hs : s.Inv) :
    ∃ t, hostMoveBy step move s = .next t ∧ t.Inv ∧ s.cycleCount ≤ t.cycleCount := by
  cases move
  case step =>
    obtain ⟨t, hstep, hlow, -⟩ := step_counts_two_to_seven s
    exact ⟨t, hstep, inv_step hs hstep, by omega⟩
  case loadMemory a bytes => exact ⟨_, rfl, Memory.wf_load hs a bytes, Nat.le_refl _⟩
  all_goals exact ⟨_, rfl, hs, Nat.le_refl _⟩

/-- A run of host moves is safe: each move is, and the next starts where it ends. -/
theorem hostRun_safe (moves : List HostMove) {s : State} (hs : s.Inv) : SafeRun moves s := by
  induction moves generalizing s with
  | nil => exact ⟨s, rfl, hs, Nat.le_refl _⟩
  | cons move rest ih =>
    obtain ⟨t, hmove, ht, hle⟩ := hostMove_safe move hs
    obtain ⟨u, hrun, hu, hle'⟩ := ih ht
    exact ⟨u, by rw [hostRun, hostRunBy_cons, hmove]; exact hrun, hu, Nat.le_trans hle hle'⟩

end Sys2Proof.Machine

namespace Sys2Proof.Proofs

open Sys2Proof.Machine Sys2Proof.Claims

/-- Settles O23, by induction on the list of moves: each move completes, keeps the canonical form and lowers no count. -/
theorem hostRunsAreSafe : Obligations.HostRunsAreSafe := fun moves _ hs => hostRun_safe moves hs

/-- Settles O55: each rule writes its listed registers; the accumulator form of a store belongs to the shifts. -/
theorem registerFrame : Obligations.RegisterFrame := by
  intro i s t h
  have hwf := wf_of_exec h
  apply exec_next_of_rule h fun _ _ hr => hr
  cases i
  case sta o | stx o | sty o | inc o | dec o =>
    have ho : o ≠ .acc := operand_ne_acc hwf (by simp [Instr.mnemonic])
    exact ⟨_, _, fun _ => rfl, by simp [Instr.mnemonic, storeResult, writeOperand_a ho]⟩
  case asl | lsr | rol | ror =>
    exact ⟨_, _, fun _ => rfl, by simp +contextual [Instr.mnemonic, Instr.operand, shiftOperand, writeOperand_a]⟩
  case jmp | bcc | bcs | beq | bne | bmi | bpl | bvc | bvs =>
    exact rule_of_pc_only (by simp [Instr.mnemonic]) fun _ => by simp [Instr.mnemonic]
  all_goals exact ⟨_, _, fun _ => rfl, by simp [Instr.mnemonic, addToA]⟩

/-- Settles O56: each rule writes its listed flags; jumps and branches write none. -/
theorem flagFrame : Obligations.FlagFrame := by
  intro i s t h
  apply exec_next_of_rule h fun _ _ hr => hr
  cases i
  case jmp | bcc | bcs | beq | bne | bmi | bpl | bvc | bvs =>
    exact rule_of_pc_only (by simp [Instr.mnemonic]) fun _ => by simp
  case adc | sbc => exact ⟨_, _, fun _ => rfl, by simp [Instr.mnemonic, addToA, addFlags, setZN]⟩
  case asl | lsr | rol | ror => exact ⟨_, _, fun _ => rfl, by simp [Instr.mnemonic, shiftOperand, shiftFlags, setZN]⟩
  case inc | dec => exact ⟨_, _, fun _ => rfl, by simp [Instr.mnemonic, storeResult, setZN]⟩
  case cmp | cpx | cpy => exact ⟨_, _, fun _ => rfl, by simp [Instr.mnemonic, compareFlags]⟩
  case bit => exact ⟨_, _, fun _ => rfl, by simp [Instr.mnemonic, bitFlags]⟩
  all_goals exact ⟨_, _, fun _ => rfl, by simp [Instr.mnemonic, setZN]⟩

/-- Settles O58: `D` as a hidden update for the instructions that neither write nor push it; a trap entry loads `PC` from a
vector no push reaches, so the pushed status byte stays in memory. -/
theorem decimalFlagHasNoEffect : Obligations.DecimalFlagHasNoEffect := by
  refine ⟨fun i s x hi => exec_withD hi x s, fun i s x hi => exec_writing_withD hi s, fun i s t u x => exec_pushing_withD,
    fun s x => ?_, fun s x => ?_, fun s => ⟨_, rfl, rfl⟩, fun s => ⟨_, rfl, rfl⟩, fun v => rfl, fun s => rfl⟩
  · simp [withD, enterTrap_nmiVector_pc]
  · simp [withD, enterTrap_irqVector_pc]

/-- Settles O59: `B` and `U` as hidden updates; BRK pushes bit 4 as 1 whatever `B` is, and no push reads `U`. -/
theorem storedBreakAndUnusedGateNothing : Obligations.StoredBreakAndUnusedGateNothing :=
  ⟨fun _ s x hi => exec_withB hi x s, fun _ s x hi => exec_withU hi x s⟩

/-- Settles O60: neither service nor any instruction reads `cycle_count`, and the poll and the fetch do not either. -/
theorem cycleCountIsNeverRead : Obligations.CycleCountIsNeverRead := by
  intro s k
  have hpoll : poll (addCycles k s) = poll s := rfl
  cases h : poll s
  case serviceNmi => simp only [step, hpoll, h, mapNext, serviceNMI_addCycles]
  case serviceIrq => simp only [step, hpoll, h, mapNext, serviceIRQ_addCycles]
  case executeInstruction => rw [step_of_poll (hpoll.trans h), step_of_poll h, executeNext_addCycles]

/-- Settles O8: a push is one write at the new `SP`, and the stack page holds the address of every `SP`. -/
theorem pushDecrementsThenWrites : Obligations.PushDecrementsThenWrites := by
  intro v s
  rw [stackAt_eq_stackAddr]
  exact ⟨rfl, Memory.read_write_same _ _ _, fun b hb => Memory.read_write_of_ne _ _ hb, stackAddr_toNat _, rfl⟩

/-- Settles O9: the pull reads at the stack address of the old `SP`. -/
theorem pullReadsThenIncrements : Obligations.PullReadsThenIncrements := by
  intro s
  rw [stackAt_eq_stackAddr]
  exact ⟨rfl, rfl⟩

/-- Settles O10: the pull reads at the address of the push, and the decrement is undone modulo 256. -/
theorem pullAfterPushRestores : Obligations.PullAfterPushRestores := by
  intro v s
  have hsp : (push v s).sp + 1 = s.sp := BitVec.sub_add_cancel s.sp 1
  exact ⟨by simp, by rw [← hsp]; rfl⟩

/-- Settles O11: the bits of `Compose()` are the flags it unpacks to, and no two bytes unpack to the same flags. -/
theorem statusByteBits : Obligations.StatusByteBits := ⟨compose_getLsbD, fun _ => rfl, compose_applyStatus⟩

end Sys2Proof.Proofs

/-! SUPPORT. The memory (20_memory.md): canonical lists as functions of the address, loaded bytes, the addresses an
instruction stores to, and the bus transactions of a step played on the memory. -/

namespace Sys2Proof.Machine

open Sys2Proof.Claims

/-! ## Canonical lists (20_memory.md R50) -/

theorem Memory.wfFrom_cons_iff {low k : Nat} {w : Byte} {rest : Memory} :
    Memory.wfFrom low ((k, w) :: rest) = true ↔
      low ≤ k ∧ k < 65536 ∧ w ≠ Config.unlistedByte ∧ Memory.wfFrom (k + 1) rest = true := by
  simp only [Memory.wfFrom, Bool.and_eq_true, decide_eq_true_eq, bne_iff_ne, and_assoc]

@[simp] theorem Memory.readKey_cons_self (k : Nat) (w : Byte) (rest : Memory) : Memory.readKey ((k, w) :: rest) k = w := by
  simp [Memory.readKey]

theorem Memory.readKey_cons_of_lt {k b : Nat} (h : b < k) (w : Byte) (rest : Memory) :
    Memory.readKey ((k, w) :: rest) b = Config.unlistedByte := by
  simp [Memory.readKey, h]

theorem Memory.readKey_cons_of_gt {k b : Nat} (h : k < b) (w : Byte) (rest : Memory) :
    Memory.readKey ((k, w) :: rest) b = Memory.readKey rest b := by
  simp [Memory.readKey, Nat.not_lt_of_lt h, Nat.ne_of_gt h]

/-- A list that reads a listed byte at a key begins at or below that key. -/
theorem Memory.head_le_of_readKey_ne {k b : Nat} {w : Byte} {rest : Memory}
    (h : Memory.readKey ((k, w) :: rest) b ≠ Config.unlistedByte) : k ≤ b :=
  Nat.le_of_not_lt fun hlt => h (Memory.readKey_cons_of_lt hlt w rest)

/-- Canonical lists that read alike at every key from their lower bound on are equal: their first cells have the same
key, since each reads the other's listed byte there, and the tails read alike above it. -/
theorem Memory.eq_of_readKey_eq {low : Nat} {m m' : Memory} (hm : Memory.wfFrom low m = true)
    (hm' : Memory.wfFrom low m' = true) (h : ∀ b, low ≤ b → b < 65536 → Memory.readKey m b = Memory.readKey m' b) :
    m = m' := by
  induction m generalizing low m' with
  | nil =>
    cases m' with
    | nil => rfl
    | cons cell' rest' =>
      obtain ⟨k', w'⟩ := cell'
      obtain ⟨hlow', hk', hw', -⟩ := Memory.wfFrom_cons_iff.mp hm'
      have hread := h k' hlow' hk'
      rw [Memory.readKey_cons_self] at hread
      exact absurd hread.symm hw'
  | cons cell rest ih =>
    obtain ⟨k, w⟩ := cell
    obtain ⟨hlow, hk, hw, hrest⟩ := Memory.wfFrom_cons_iff.mp hm
    have hread := h k hlow hk
    rw [Memory.readKey_cons_self] at hread
    cases m' with
    | nil => exact absurd hread hw
    | cons cell' rest' =>
      obtain ⟨k', w'⟩ := cell'
      obtain ⟨hlow', hk', hw', hrest'⟩ := Memory.wfFrom_cons_iff.mp hm'
      have hread' := h k' hlow' hk'
      rw [Memory.readKey_cons_self] at hread'
      obtain rfl : k = k' :=
        Nat.le_antisymm (Memory.head_le_of_readKey_ne (hread' ▸ hw')) (Memory.head_le_of_readKey_ne (hread ▸ hw))
      rw [Memory.readKey_cons_self] at hread
      have htail : rest = rest' := by
        refine ih hrest hrest' fun b hb hlt => ?_
        have := h b (by omega) hlt
        rwa [Memory.readKey_cons_of_gt hb, Memory.readKey_cons_of_gt hb] at this
      rw [hread, htail]

/-! ## Loaded bytes (20_memory.md R68) -/

/-- Fewer than 65536 addresses on from the next one do not come back to the first. -/
theorem ne_addr_succ_add (a : Addr) {k : Nat} (h : k + 1 < 65536) : a ≠ a + 1#16 + BitVec.ofNat 16 k := by
  intro heq
  rw [addr_succ, ← BitVec.toNat_inj, BitVec.toNat_add, BitVec.toNat_ofNat] at heq
  omega

/-- The `k`-th of at most 65536 loaded bytes stays at its address. -/
theorem Memory.read_load_getElem (m : Memory) (a : Addr) (bytes : List Byte) (hlen : bytes.length ≤ 65536) (k : Nat)
    (h : k < bytes.length) : (m.load a bytes).read (a + BitVec.ofNat 16 k) = bytes[k] := by
  induction bytes generalizing m a k with
  | nil => exact absurd h (Nat.not_lt_zero k)
  | cons b rest ih =>
    rw [List.length_cons] at hlen h
    rw [Memory.load_cons]
    cases k with
    | zero =>
      have hne : ∀ j < rest.length, a ≠ a + 1 + BitVec.ofNat 16 j := fun j hj => ne_addr_succ_add a (by omega)
      rw [BitVec.add_zero, Memory.read_load_of_ne _ _ _ _ hne]
      exact Memory.read_write_same m a b
    | succ k =>
      rw [← addr_succ]
      exact ih (m.write a b) (a + 1) (by omega) k (by omega)

/-! ## What an instruction stores (20_memory.md R60) -/

/-- The memory `m'` reads as `m` outside the addresses of a list, and is `m` when the list is empty. -/
def ChangedOnlyAt (addrs : List Addr) (m m' : Memory) : Prop :=
  (∀ a : Addr, a ∉ addrs → m'.read a = m.read a) ∧ (addrs = [] → m' = m)

theorem ChangedOnlyAt.refl (addrs : List Addr) (m : Memory) : ChangedOnlyAt addrs m m := ⟨fun _ _ => rfl, fun _ => rfl⟩

/-- One write more changes one address more. -/
theorem ChangedOnlyAt.write {addrs : List Addr} {m m' : Memory} (a : Addr) (v : Byte)
    (h : ChangedOnlyAt addrs (m.write a v) m') : ChangedOnlyAt (a :: addrs) m m' := by
  refine ⟨fun b hb => ?_, fun hnil => absurd hnil (List.cons_ne_nil a addrs)⟩
  rw [List.mem_cons, not_or] at hb
  obtain ⟨hne, hb⟩ := hb
  rw [h.1 b hb, Memory.read_write_of_ne m v hne]

/-- Writing an operand changes its address in memory, if it has one. -/
theorem changedOnlyAt_writeOperand (o : Operand) (v : Byte) (s : State) :
    ChangedOnlyAt (storeAddr o s).toList s.mem (writeOperand o v s).mem := by
  obtain ⟨-, hwrite⟩ | ⟨ea, hea, hwrite⟩ | ⟨-, -, hwrite⟩ := writeOperand_frame o v s
  · rw [hwrite]; exact .refl _ _
  · rw [hwrite, hea]; exact .write ea v (.refl _ _)
  · rw [hwrite]; exact .refl _ _

/-- An instruction changes memory only at the addresses it stores to: its operand's, the stack slots it pushes to, or
none. -/
theorem exec_changedOnlyAt_storedTo {i : Instr} {s t : State} (h : exec i s = .next t) :
    ChangedOnlyAt (storedTo i s) s.mem t.mem := by
  apply exec_next_of_rule h fun _ _ hr => hr
  cases i
  case sta o | stx o | sty o | asl o | lsr o | rol o | ror o | inc o | dec o =>
    exact ⟨_, _, fun _ => rfl, changedOnlyAt_writeOperand o _ s⟩
  case pha | php => exact ⟨_, _, fun _ => rfl, .write _ _ (.refl _ _)⟩
  case jsr =>
    refine ⟨_, _, fun _ => rfl, ?_⟩
    rw [setPc_mem, pushWord_eq]
    exact .write _ _ (.write _ _ (.refl _ _))
  case brk =>
    refine ⟨_, _, fun _ => rfl, ?_⟩
    rw [enterTrap_mem]
    exact .write _ _ (.write _ _ (.write _ _ (.refl _ _)))
  case jmp | bcc | bcs | beq | bne | bmi | bpl | bvc | bvs =>
    exact rule_of_pc_only (by simp [Instr.mnemonic]) fun _ => .refl _ _
  all_goals exact ⟨_, _, fun _ => rfl, .refl _ _⟩

/-! ## The bus transactions played on the memory (20_memory.md R50, R54, R62) -/

/-- Transactions in a row play one after the other. -/
theorem replay_append (before after : List BusAccess) (m : Memory) :
    replay (before ++ after) m = (replay before m).bind (replay after) := by
  induction before generalizing m with
  | nil => rfl
  | cons access rest ih =>
    cases access with
    | rd a v =>
      by_cases hread : m.read a = v
      · simp [replay, hread, ih]
      · simp [replay, hread]
    | wr a v => exact ih (m.write a v)

/-- A read of a state plays on that state's memory and leaves it. -/
@[simp] theorem replay_rdAt_cons (s : State) (a : Addr) (rest : List BusAccess) :
    replay (rdAt s a :: rest) s.mem = replay rest s.mem := by
  simp [replay, rdAt]

@[simp] theorem replay_nil (m : Memory) : replay [] m = some m := rfl

@[simp] theorem replay_fetchReads (n : Nat) (a : Addr) (s : State) : replay (fetchReads n a s) s.mem = some s.mem := by
  induction n generalizing a with
  | zero => rfl
  | succ n ih => rw [fetchReads, replay_rdAt_cons, ih]

@[simp] theorem replay_pullBus (n : Nat) (sp : Byte) (s : State) : replay (pullBus n sp s) s.mem = some s.mem := by
  induction n generalizing sp with
  | zero => rfl
  | succ n ih => rw [pullBus, replay_rdAt_cons, ih]

@[simp] theorem replay_pointerBus (o : Operand) (s : State) : replay (pointerBus o s) s.mem = some s.mem := by
  cases o
  case ind | indx | indy => simp [pointerBus]
  all_goals rfl

@[simp] theorem replay_readBus (o : Operand) (s : State) : replay (readBus o s) s.mem = some s.mem := by
  rw [readBus, replay_append, replay_pointerBus]
  cases storeAddr o s <;> simp

/-- The write listed for an operand is the operand written. -/
theorem replay_write_storeAddr (o : Operand) (v : Byte) (s : State) :
    replay ((storeAddr o s).map fun ea => BusAccess.wr ea v).toList s.mem = some (writeOperand o v s).mem := by
  cases o <;> rfl

theorem replay_writeBus (o : Operand) (v : Byte) (s : State) :
    replay (writeBus o v s) s.mem = some (writeOperand o v s).mem := by
  rw [writeBus, replay_append, replay_pointerBus, Option.bind_some, replay_write_storeAddr]

theorem replay_modifyBus (o : Operand) (r : Byte) (s : State) :
    replay (modifyBus o r s) s.mem = some (writeOperand o r s).mem := by
  rw [modifyBus, replay_append, replay_readBus, Option.bind_some, replay_write_storeAddr]

/-- The transactions of a trap entry leave the memory of its pushes, from which the vector is read. -/
theorem replay_trapBus (ret : Addr) (status : Byte) (vector : Addr) (s : State) :
    replay (trapBus ret status vector s) s.mem = some (enterTrap ret status vector s).mem := by
  have hpushes : replay (pushBus [hiByte ret, loByte ret, status] s.sp) s.mem = some (push status (pushWord ret s)).mem := rfl
  rw [trapBus, replay_append, hpushes, Option.bind_some, replay_rdAt_cons, replay_rdAt_cons]
  rfl

/-- The transactions of an instruction that completes leave its memory: reads leave it, and the writes listed are the
instruction's stores in their order. -/
theorem replay_instrBus {i : Instr} {s t : State} (h : exec i s = .next t) :
    replay (instrBus i s) s.mem = some t.mem := by
  apply exec_next_of_rule h fun _ _ hr => hr
  cases i
  case lda o | ldx o | ldy o | and o | ora o | eor o | bit o | adc o | sbc o | cmp o | cpx o | cpy o =>
    exact ⟨_, _, fun _ => rfl, replay_readBus o s⟩
  case sta o | stx o | sty o => exact ⟨_, _, fun _ => rfl, replay_writeBus o _ s⟩
  case asl o | lsr o | rol o | ror o | inc o | dec o => exact ⟨_, _, fun _ => rfl, replay_modifyBus o _ s⟩
  case pla | plp | rts | rti => exact ⟨_, _, fun _ => rfl, replay_pullBus _ _ s⟩
  case brk => exact ⟨_, _, fun _ => rfl, replay_trapBus _ _ _ s⟩
  case jmp o => exact rule_of_pc_only (by simp [Instr.mnemonic]) fun _ => replay_pointerBus o s
  case bcc | bcs | beq | bne | bmi | bpl | bvc | bvs =>
    exact rule_of_pc_only (by simp [Instr.mnemonic]) fun _ => rfl
  all_goals exact ⟨_, _, fun _ => rfl, rfl⟩

/-- Fetching changes `PC` alone. -/
@[simp] theorem fetchInstr_mem (s : State) : (fetchInstr s).2.mem = s.mem := by rw [fetchInstr_eq]

/-- The transactions of a step leave its memory: those of a service, or the fetch's reads and then the instruction's. -/
theorem replay_stepBus {s t : State} (h : step s = .next t) : replay (stepBus s) s.mem = some t.mem := by
  cases hpoll : poll s
  case serviceNmi =>
    simp only [step, hpoll, Host.Outcome.next.injEq] at h
    simp only [stepBus, hpoll, ← h, serviceNMI_mem, replay_trapBus]
  case serviceIrq =>
    simp only [step, hpoll, Host.Outcome.next.injEq] at h
    simp only [stepBus, hpoll, ← h, serviceIRQ_mem, replay_trapBus]
  case executeInstruction =>
    rw [step_of_poll hpoll, executeNext] at h
    have hinstr := replay_instrBus h
    rw [fetchInstr_mem] at hinstr
    simp only [stepBus, hpoll]
    rw [replay_append, fetchBus, fetchBusBy, replay_fetchReads, Option.bind_some, hinstr]

end Sys2Proof.Machine

namespace Sys2Proof.Proofs

open Sys2Proof.Machine Sys2Proof.Claims

/-- Settles O22: a service stores by pushes, an instruction by pushes or to its operand, and each write keeps the form. -/
theorem stepKeepsMemoryCanonical : Obligations.StepKeepsMemoryCanonical := fun _ _ => inv_step

/-- Settles O24: the fetch reads the memory the step starts from, and the listed writes are the step's own. -/
theorem busTransactionsReplayStep : Obligations.BusTransactionsReplayStep := fun _ _ => replay_stepBus

/-- Settles O5, by induction on the bytes: of at most 65536 no later one reaches the address of an earlier one. -/
theorem loadMemoryPlacesBytes : Obligations.LoadMemoryPlacesBytes := fun a bytes s hlen =>
  ⟨Memory.read_load_getElem s.mem a bytes hlen, fun b => Memory.read_load_of_ne s.mem a b bytes, rfl⟩

/-- Settles O7, by induction on the first list: what a canonical list reads fixes its first cell. -/
theorem canonicalMemoryIsExtensional : Obligations.CanonicalMemoryIsExtensional := by
  intro m m' hm hm' h
  refine Memory.eq_of_readKey_eq hm hm' fun b _ hb => ?_
  have hread := h (BitVec.ofNat 16 b)
  rwa [Memory.read, Memory.read, BitVec.toNat_ofNat, Nat.mod_eq_of_lt hb] at hread

/-- Settles O54: every store is a write to the operand or to a stack slot the list names. -/
theorem memoryFrame : Obligations.MemoryFrame := fun _ _ _ => exec_changedOnlyAt_storedTo

/-- Settles O3: memory with nothing listed is in canonical form. -/
theorem resetMeetsInvariant : Obligations.ResetMeetsInvariant := Memory.wf_nil

/-- Settles O6: the law of a read after a write, at the address and off it. -/
theorem busWritesOneByte : Obligations.BusWritesOneByte := fun a v s =>
  ⟨Memory.read_write_same s.mem a v, fun _ => Memory.read_write_of_ne s.mem v, rfl, rfl⟩

end Sys2Proof.Proofs

/-! SUPPORT. The encoding (30_encoding.md): the two directions between instructions and bytes, what an undefined opcode
byte begins, and the word the host places at `PC`. -/

namespace Sys2Proof

/-! ## From an instruction to its bytes (30_encoding.md R80 to R85) -/

/-- The operand bytes are what an instruction has beside its opcode byte; an undefined opcode has none. -/
theorem length_eq_succ_operand_bytes (i : Instr) : i.length = i.operand.bytes.length + 1 := by
  by_cases hu : i.mnemonic = .undef
  · obtain ⟨op, rfl⟩ := (mnemonic_eq_undef_iff i).mp hu
    rfl
  · rw [length_of_ne_undef hu, operand_bytes_length, operand_mode, Nat.add_comm]

/-- The opcode byte of an undefined opcode is the whole instruction (30_encoding.md R87). -/
theorem instrOfBytes_of_undefined {op : Byte} (h : op ∈ undefinedOpcodes) (b1 b2 : Byte) :
    instrOfBytes op b1 b2 = .undef op := by
  rw [instrOfBytes_eq, dispatch_undefined h]
  rfl

theorem opcodeLength_of_undefined {op : Byte} (h : op ∈ undefinedOpcodes) : opcodeLength op = 1 := by
  rw [opcodeLength_eq, dispatch_undefined h]
  rfl

/-- A well-formed instruction is encoded as an opcode byte that begins it, followed by its operand bytes. -/
theorem encode_eq_cons {i : Instr} (h : i.wf = true) (rest : List Byte) :
    ∃ op, encode i = op :: i.operand.bytes ∧
      instrOfBytes op ((i.operand.bytes ++ rest).getD 0 0) ((i.operand.bytes ++ rest).getD 1 0) = i := by
  by_cases hu : i.mnemonic = .undef
  · obtain ⟨op, rfl⟩ := (mnemonic_eq_undef_iff i).mp hu
    have hop := (undef_wf_iff op).mp h
    exact ⟨op, encode_undef hop, instrOfBytes_of_undefined hop _ _⟩
  · obtain ⟨r, hr⟩ := exists_row h hu
    obtain ⟨hmem, hm, hmode⟩ := rowFor_some hr
    refine ⟨r.opcode, encode_of_row hr, ?_⟩
    rw [instrOfBytes_eq, dispatch_of_mem r hmem, hm, hmode]
    exact assemble_eq hu (operandOf_bytes i.operand rest) _

/-! ## From bytes to the instruction (30_encoding.md R80 to R87) -/

/-- The bytes of the instruction an opcode byte begins are that byte and the next ones up to its length. -/
theorem encode_instrOfBytes {op : Byte} {tail : List Byte} (h : opcodeLength op - 1 ≤ tail.length) :
    encode (instrOfBytes op (tail.getD 0 0) (tail.getD 1 0)) = op :: tail.take (opcodeLength op - 1) := by
  obtain hr | hu := dispatch_mem_or_undefined op
  · obtain ⟨hne, hmode⟩ := mode_mem_of_mem _ hr
    have hlen : opcodeLength op - 1 = (dispatch op).mode.operandBytes := by
      rw [opcodeLength_eq, lengthOf_eq, if_neg hne, Nat.add_sub_cancel_left]
    rw [hlen] at h ⊢
    rw [instrOfBytes_eq, encode_of_row (r := dispatch op), dispatch_opcode, assemble_operand hmode, bytes_operandOf h]
    rw [assemble_mnemonic, assemble_mode hmode, rowFor_of_mem _ hr]
  · rw [instrOfBytes_of_undefined hu, encode_undef hu, opcodeLength_of_undefined hu]
    rfl

/-- Only an undefined opcode byte begins an undefined instruction. -/
theorem mem_undefined_of_instrOfBytes {op b1 b2 x : Byte} (h : instrOfBytes op b1 b2 = .undef x) :
    op ∈ undefinedOpcodes := by
  refine (dispatch_mem_or_undefined op).resolve_left fun hr => (mode_mem_of_mem _ hr).1 ?_
  have hm := congrArg Instr.mnemonic h
  rwa [instrOfBytes_eq, assemble_mnemonic] at hm

/-- Three bytes hold the instruction any opcode byte begins. -/
theorem decode_three (op b1 b2 : Byte) :
    decode [op, b1, b2] = .ok (instrOfBytes op b1 b2, [b1, b2].drop (opcodeLength op - 1)) := by
  have hlen := Machine.opcodeLength_cases op
  exact decode_cons op [b1, b2] (show opcodeLength op - 1 ≤ 2 by omega)

/-! ## The opcode map (30_encoding.md R85) -/

theorem dispatchTable_nodup : dispatchTable.Nodup := by decide +kernel

/-- No opcode byte has two rows: a row is the entry of its byte. -/
theorem opcodes_nodup : (dispatchTable.map DispatchRow.opcode).Nodup := by
  refine dispatchTable_nodup.map_on fun r hr r' hr' heq => ?_
  rw [← dispatch_of_mem r hr, heq, dispatch_of_mem r' hr']

/-- No mnemonic has two rows in one mode: a row is the one its mnemonic and mode find. -/
theorem mnemonicModes_nodup : (dispatchTable.map fun r => (r.mnemonic, r.mode)).Nodup := by
  refine dispatchTable_nodup.map_on fun r hr r' hr' heq => ?_
  obtain ⟨hm, hmode⟩ := Prod.mk.inj heq
  have hrow := rowFor_of_mem r hr
  rw [hm, hmode, rowFor_of_mem r' hr'] at hrow
  exact (Option.some.inj hrow).symm

theorem undefinedOpcodes_nodup : undefinedOpcodes.Nodup := by decide +kernel

/-- The 23 opcodes of 40_addressing_modes.md R113. -/
theorem pageCross_opcodes_perm :
    ((dispatchTable.filter DispatchRow.pageCrossExtra).map DispatchRow.opcode).Perm
      [0xBD, 0xB9, 0xB1, 0x3D, 0x39, 0x31, 0x1D, 0x19, 0x11, 0x5D, 0x59, 0x51, 0x7D, 0x79, 0x71, 0xFD, 0xF9, 0xF1,
        0xDD, 0xD9, 0xD1, 0xBE, 0xBC] := by
  decide +kernel

end Sys2Proof

namespace Sys2Proof.Machine

/-! ## The word the host places (20_memory.md R68) -/

theorem tableWordBytes_eq (nbits w : Nat) :
    tableWordBytes nbits w =
      [BitVec.ofNat 8 (w % 2 ^ nbits), BitVec.ofNat 8 (w % 2 ^ nbits / 256), BitVec.ofNat 8 (w % 2 ^ nbits / 65536)] := rfl

/-- A table word that decodes is the bytes of its instruction and some bytes left over. -/
theorem decode_of_decodeTableWord {nbits w : Nat} {i : Instr} (h : decodeTableWord nbits w = some i) :
    ∃ rest, decode (tableWordBytes nbits w) = .ok (i, rest) := by
  unfold decodeTableWord at h
  split at h
  next j rest hdec => exact ⟨rest, Option.some.inj h ▸ hdec⟩
  next => cases h

/-- Three loaded bytes are three writes at consecutive addresses. -/
theorem Memory.load_three (m : Memory) (a : Addr) (b0 b1 b2 : Byte) :
    m.load a [b0, b1, b2] = ((m.write a b0).write (a + 1) b1).write (a + 2) b2 := by
  have h : a + 1 + 1 = a + 2 := by rw [BitVec.add_assoc]; rfl
  rw [Memory.load_cons, Memory.load_cons, Memory.load_cons, Memory.load_nil, h]

/-- The three bytes at the address a word is loaded to are the word's. -/
theorem Memory.reads_of_load_three (m : Memory) (a : Addr) (b0 b1 b2 : Byte) :
    [(m.load a [b0, b1, b2]).read a, (m.load a [b0, b1, b2]).read (a + 1), (m.load a [b0, b1, b2]).read (a + 2)] =
      [b0, b1, b2] := by
  have hread := Memory.read_load_getElem m a [b0, b1, b2] (show 3 ≤ 65536 by decide)
  have h0 : (m.load a [b0, b1, b2]).read (a + BitVec.ofNat 16 0) = b0 := hread 0 (show 0 < 3 by decide)
  have h1 : (m.load a [b0, b1, b2]).read (a + 1) = b1 := hread 1 (show 1 < 3 by decide)
  have h2 : (m.load a [b0, b1, b2]).read (a + 2) = b2 := hread 2 (show 2 < 3 by decide)
  rw [BitVec.add_zero] at h0
  rw [h0, h1, h2]

/-- What the placement changes: the latches of the services due, and the bytes at `PC` (assumption log 2). -/
theorem withFetchWord_eq (s : State) (nbits w : Nat) :
    s.withFetchWord nbits w = { s with
      nmiPending := false
      irqPending := s.irqPending && s.flags.i
      mem := s.mem.load s.pc (tableWordBytes nbits w) } := rfl

/-- The bytes at `PC` after the placement are the word's. -/
theorem reads_of_withFetchWord (s : State) (nbits w : Nat) :
    [(s.withFetchWord nbits w).mem.read (s.withFetchWord nbits w).pc,
      (s.withFetchWord nbits w).mem.read ((s.withFetchWord nbits w).pc + 1),
      (s.withFetchWord nbits w).mem.read ((s.withFetchWord nbits w).pc + 2)] = tableWordBytes nbits w := by
  rw [withFetchWord_eq, tableWordBytes_eq]
  exact Memory.reads_of_load_three _ _ _ _ _

end Sys2Proof.Machine

namespace Sys2Proof.Proofs

open Sys2Proof.Machine

/-- Settles O12: the opcode byte of the encoding begins the instruction, and its length is that of the encoding. -/
theorem decodeOfEncode : Obligations.DecodeOfEncode := by
  intro i rest h
  obtain ⟨op, henc, hinstr⟩ := encode_eq_cons h rest
  have hlen : opcodeLength op - 1 = i.operand.bytes.length := by
    rw [← length_instrOfBytes op, hinstr, length_eq_succ_operand_bytes, Nat.add_sub_cancel]
  rw [henc, List.cons_append, decode_cons _ _ (by simp [hlen]), hinstr, hlen, List.drop_left]

/-- Settles O13: the decoder takes the bytes up to the length, which are the encoding, and leaves the others. -/
theorem encodeOfDecode : Obligations.EncodeOfDecode := by
  intro bytes i rest h
  obtain ⟨op, tail, rfl, hlen, rfl, rfl⟩ := decode_eq_ok h
  refine ⟨wf_instrOfBytes _ _ _, ?_⟩
  rw [encode_instrOfBytes hlen, List.cons_append, List.take_append_drop]

/-- Settles O14: three bytes hold every instruction, and the undefined bytes are those without a row. -/
theorem everyOpcodeByteDecodes : Obligations.EveryOpcodeByteDecodes := by
  refine ⟨fun op b1 b2 => ⟨_, _, decode_three op b1 b2, length_instrOfBytes op b1 b2, ?_, ?_⟩,
    fun op b1 b2 hu => ?_, fun op b1 b2 hop x hx => hop (mem_undefined_of_instrOfBytes hx)⟩
  · have hcases := opcodeLength_cases op
    rw [length_instrOfBytes, List.length_drop, show [b1, b2].length = 2 from rfl]
    omega
  · rw [decode_three, List.length_drop, show [b1, b2].length = 2 from rfl, ← List.drop_replicate]
    rfl
  · rw [decode_three, instrOfBytes_of_undefined hu, opcodeLength_of_undefined hu]
    rfl

/-- Settles O18: the placed bytes are those the step fetches, so the step runs what they decode to. -/
theorem placedWordIsExecuted : Obligations.PlacedWordIsExecuted := by
  intro s nbits w i h
  obtain ⟨rest, hdec⟩ := decode_of_decodeTableWord h
  rw [← reads_of_withFetchWord s] at hdec
  have hirq : (s.irqPending && s.flags.i) = true → s.flags.i = true := Bool.and_elim_right
  have hstep := stepRunsDecodedInstruction.1 (s.withFetchWord nbits w) i rest rfl hirq hdec
  rw [hstep, withFetchWord_eq, tableWordBytes_eq, Memory.load_three]

/-- Settles O15: rows are told apart by their opcode byte and by their mnemonic with mode. -/
theorem opcodeMapUnambiguous : Obligations.OpcodeMapUnambiguous :=
  ⟨rfl, opcodes_nodup, mnemonicModes_nodup, rfl, undefinedOpcodes_nodup, opcode_defined, pageCross_opcodes_perm⟩

/-- Settles O16, by running the decoder on each word. -/
theorem knownWordsDecode : Obligations.KnownWordsDecode := by
  and_intros <;> rfl

end Sys2Proof.Proofs

/-! SUPPORT. The addressing modes (40_addressing_modes.md): the numbers the address computations give, page crossing as a
carry, and the operand of a fetched instruction. -/

namespace Sys2Proof

/-! ## The zero page and the next address (40_addressing_modes.md R103, R106, R107, R108) -/

theorem word16_zero_toNat (b : Byte) : (word16 0 b).toNat = b.toNat := by
  simp [word16_toNat]

theorem byte_succ_toNat (b : Byte) : (b + 1).toNat = (b.toNat + 1) % 256 := BitVec.toNat_add b 1

/-- Inside a page the next address is that of the next low byte. -/
theorem word16_succ_of_ne {lo : Byte} (h : lo ≠ 0xFF) (hi : Byte) : word16 hi (lo + 1) = word16 hi lo + 1 := by
  have hne : lo.toNat ≠ 255 := fun he => h (BitVec.eq_of_toNat_eq he)
  have hnext : (word16 hi lo + 1).toNat = (hi.toNat * 256 + lo.toNat + 1) % 65536 := by
    rw [← word16_toNat]
    exact BitVec.toNat_add _ 1
  have hhi := hi.isLt
  have hlo := lo.isLt
  apply BitVec.eq_of_toNat_eq
  rw [hnext, word16_toNat, byte_succ_toNat]
  omega

/-! ## The modes of the opcode map (30_encoding.md R85) -/

/-- An opcode byte in any mode but Implied has a row: the undefined entry is Implied. -/
theorem dispatch_mem_of_mode_ne_imp {op : Byte} (h : (dispatch op).mode ≠ .imp) : dispatch op ∈ dispatchTable :=
  (dispatch_mem_or_undefined op).resolve_right fun hu => h (by rw [dispatch_undefined hu]; rfl)

/-- Zero-Page,Y belongs to LDX and STX (40_addressing_modes.md R102). -/
theorem row_mnemonic_of_zpy : ∀ r ∈ dispatchTable, r.mode = .zpy → r.mnemonic ∈ [Mnemonic.ldx, .stx] := by
  decide +kernel

/-- Indirect belongs to one opcode byte (40_addressing_modes.md R106). -/
theorem row_opcode_of_ind : ∀ r ∈ dispatchTable, r.mode = .ind → r.opcode = 0x6C := by
  decide +kernel

theorem dispatch_ind_iff (op : Byte) : (dispatch op).mode = .ind ↔ op = 0x6C := by
  refine ⟨fun h => ?_, fun h => by rw [h]; rfl⟩
  have hmem : dispatch op ∈ dispatchTable := dispatch_mem_of_mode_ne_imp (by rw [h]; decide)
  simpa using row_opcode_of_ind _ hmem h

/-! ## The operand of the instruction three bytes begin (30_encoding.md R80, R83, R84) -/

/-- The operand is the one its opcode's mode makes of the operand bytes; an undefined opcode has the Implied one. -/
theorem instrOfBytes_operand (op b1 b2 : Byte) :
    (instrOfBytes op b1 b2).operand = operandOf (dispatch op).mode b1 b2 := by
  obtain hr | hu := dispatch_mem_or_undefined op
  · exact assemble_operand (mode_mem_of_mem _ hr).2 op b1 b2
  · rw [instrOfBytes_of_undefined hu, dispatch_undefined hu]
    rfl

theorem opcodeLength_eq_succ_operandBytes (op : Byte) : opcodeLength op = (dispatch op).mode.operandBytes + 1 := by
  rw [← Machine.length_instrOfBytes op 0 0, length_eq_succ_operand_bytes, operand_bytes_length, instrOfBytes_operand,
    operandOf_mode]

theorem operandOf_eq_imm_iff {mode : Mode} {b1 b2 v : Byte} :
    operandOf mode b1 b2 = .imm v ↔ mode = .imm ∧ b1 = v := by
  cases mode <;> simp [operandOf]

end Sys2Proof

namespace Sys2Proof.Machine

/-! ## Address computations (40_addressing_modes.md R101, R102, R104, R108, R112) -/

theorem zeroPageIndexed_toNat (b index : Byte) : (zeroPageIndexed b index).toNat = (b.toNat + index.toNat) % 256 := by
  rw [zeroPageIndexed, word16_zero_toNat, BitVec.toNat_add]

/-- The address after a zero-page address, inside the zero page. -/
theorem word16_zero_succ_toNat (b : Byte) : (word16 0 (b + 1)).toNat = (b.toNat + 1) % 256 := by
  rw [word16_zero_toNat, byte_succ_toNat]

theorem zeroPagePointer_eq (s : State) (p : Byte) :
    zeroPagePointer s p = word16 (s.mem.read (word16 0 (p + 1))) (s.mem.read (word16 0 p)) := rfl

/-- The branch target in integers: the offset counts as a signed byte. -/
theorem branchTarget_toNat (pcNext : Addr) (offset : Byte) :
    ((branchTarget pcNext offset).toNat : Int) = (pcNext.toNat + offset.toInt) % 65536 := by
  rw [branchTarget, BitVec.toNat_add, BitVec.signExtend, BitVec.toNat_ofInt]
  omega

/-! ## Page crossing (40_addressing_modes.md R104, R115) -/

/-- The high byte changes when the low bytes carry (90_conflicts.md C12). -/
theorem otherPage_indexed_iff (base : Addr) (index : Byte) :
    otherPage base (indexed base index) = true ↔ 255 < (loByte base).toNat + index.toNat := by
  have hbase := base.isLt
  have hindex := index.isLt
  rw [otherPage_iff, indexed_toNat, loByte_toNat]
  omega

theorem crossed_eq_false {o : Operand} (h : o.mode ∉ [Mode.absx, .absy, .indy]) (s : State) : crossed o s = false :=
  Bool.eq_false_of_not_eq_true fun hc => h (mode_of_crossed hc)

/-! ## The immediate operand (40_addressing_modes.md R109) -/

/-- An immediate operand is fetched as the byte after the opcode, and the fetch ends past it (assumption log 22). -/
theorem fetchInstr_of_imm {s : State} {v : Byte} (h : (fetchInstr s).1.operand = .imm v) :
    s.mem.read (s.pc + 1) = v ∧ (fetchInstr s).2 = { s with pc := s.pc + 2 } := by
  rw [fetchInstr_eq, instrOfBytes_operand, operandOf_eq_imm_iff] at h
  obtain ⟨hmode, hv⟩ := h
  refine ⟨hv, ?_⟩
  rw [fetchInstr_eq, opcodeLength_eq_succ_operandBytes, hmode]
  rfl

end Sys2Proof.Machine

namespace Sys2Proof.Proofs

open Sys2Proof.Machine

/-- Settles O25: each sum is that of its address computation, and only the modes R115 names compute a crossing. -/
theorem directAndIndexedAddresses : Obligations.DirectAndIndexedAddresses :=
  ⟨fun b _ => ⟨_, rfl, word16_zero_toNat b⟩,
    fun b s => ⟨_, rfl, zeroPageIndexed_toNat b s.x⟩,
    fun b s => ⟨_, rfl, zeroPageIndexed_toNat b s.y⟩,
    fun lo hi _ => ⟨_, rfl, word16_toNat hi lo⟩,
    fun base s => ⟨_, rfl, indexed_toNat base s.x, otherPage_iff base _⟩,
    fun base s => ⟨_, rfl, indexed_toNat base s.y, otherPage_iff base _⟩,
    fun _ s h => crossed_eq_false h s,
    fun _ h => row_mnemonic_of_zpy _ (dispatch_mem_of_mode_ne_imp (by rw [h]; decide)) h,
    rfl, rfl, rfl, rfl, rfl, rfl⟩

/-- Settles O26: both sides are about the sum of the low bytes. -/
theorem crossingIsLowByteCarry : Obligations.CrossingIsLowByteCarry := otherPage_indexed_iff

/-- Settles O27: the high byte is read at the pointer's page with the next low byte, which is the next address unless the
low byte wraps. -/
theorem indirectPageWrapErratum : Obligations.IndirectPageWrapErratum := by
  refine ⟨fun lo hi s => ⟨_, rfl, rfl, fun hlo => ?_, fun hlo => ?_⟩, fun _ => rfl, fun _ _ => rfl, rfl,
    dispatch_ind_iff, rfl⟩
  · exact (indirectHighAddr_word16 hi lo).trans (word16_succ_of_ne hlo hi)
  · rw [hlo]
    exact indirectHighAddr_word16 hi 0xFF

/-- Settles O28: the pointer is taken modulo 256 before its two bytes are read, and its successor wraps again. -/
theorem indexedIndirectStaysInZeroPage : Obligations.IndexedIndirectStaysInZeroPage := by
  intro b s
  refine ⟨word16 0 (b + s.x), word16 0 (b + s.x + 1), zeroPageIndexed_toNat b s.x, ?_, rfl, rfl, rfl⟩
  rw [word16_zero_succ_toNat, BitVec.toNat_add, Nat.mod_add_mod]

/-- Settles O29: the index is added to the word at the zero-page pointer. -/
theorem indirectIndexedAddsYAfterwards : Obligations.IndirectIndexedAddsYAfterwards := fun b s =>
  ⟨word16 0 b, word16 0 (b + 1), zeroPagePointer s b, _, word16_zero_toNat b, word16_zero_succ_toNat b,
    zeroPagePointer_eq s b, indexed_toNat _ s.y, rfl, bne_iff_ne⟩

/-- Settles O30: a signed byte is its number, less 256 from 128 on. -/
theorem relativeTargetIsSigned : Obligations.RelativeTargetIsSigned := by
  intro offset s
  refine ⟨_, rfl, ?_, rfl, rfl⟩
  rw [branchTarget_toNat, BitVec.toInt_eq_toNat_cond]
  split <;> split <;> omega

/-- Settles O31: the fetch leaves `PC` one past the immediate byte. -/
theorem immediateIsTheByteAtItsAddress : Obligations.ImmediateIsTheByteAtItsAddress := by
  rintro s i v rfl hv
  obtain ⟨hread, hstate⟩ := fetchInstr_of_imm hv
  have hea : s.pc + 2 - 1 = s.pc + 1 := by bv_omega
  refine ⟨?_, hread⟩
  rw [hstate, resolve, hea]

/-- Settles O40: a form in memory is read and stored at the one address it resolves to. -/
theorem operandValueByForm : Obligations.OperandValueByForm := by
  refine fun o s => ⟨?_, ?_, fun ea h => ⟨storeAddr_eq_some h, operandValue_of_storeAddr h⟩, fun h => storeAddr_isSome h s⟩
  · rintro rfl
    exact operandValue_acc s
  · rintro v rfl
    exact operandValue_imm v s

end Sys2Proof.Proofs

/-! SUPPORT. Loads and stores (41_load_store.md): the result of a rule that adds no cycles, where a store goes, and what
the operand's value depends on. -/

namespace Sys2Proof.Machine

open Sys2Proof.Claims

/-! ## Completing a load or a store (40_addressing_modes.md R113, 70_reset_and_hazards.md R270) -/

/-- An instruction of the hardware whose rule adds no cycles and counts none, completed as the statements write it. -/
theorem retire_eq_cyclesAfter {i : Instr} (h : i.wf = true) {s t : State} (hcount : t.cycleCount = s.cycleCount) :
    retire (chargeOf i) i s 0 t = .next { t with cycleCount := cyclesAfter i s } := by
  rw [retire_of_wf h, cyclesAfter, ← hcount]
  rfl

/-- Only an instruction that reads its operand and writes none pays for a crossing. -/
theorem pageExtra_eq_zero_of_not_readsOnly {i : Instr} (h : i.wf = true) (hm : ¬ ReadsOnly i.mnemonic) (s : State) :
    pageExtra i s = 0 := by
  rw [pageExtra_eq_ite h, if_neg fun hpay => hm hpay.1]

/-- A store of the hardware writes one byte at its effective address and counts its base. -/
theorem retire_store {i : Instr} (h : i.wf = true) (hm : i.mnemonic ∈ [Mnemonic.sta, .stx, .sty]) (v : Byte) (s : State) :
    ∃ ea, storeAddr i.operand s = some ea ∧ retire (chargeOf i) i s 0 (writeOperand i.operand v s) = .next { s with
      mem := s.mem.write ea v, cycleCount := s.cycleCount + baseCycles i } := by
  obtain ⟨ea, hea⟩ := storeAddr_of_stores h (List.mem_append_left [Mnemonic.inc, .dec] hm) s
  have hread : ¬ ReadsOnly i.mnemonic := by
    revert hm
    generalize i.mnemonic = m
    revert m
    decide
  refine ⟨ea, hea, ?_⟩
  rw [retire_eq_cyclesAfter h (writeOperand_cycleCount _ _ _), writeOperand_of_storeAddr hea, cyclesAfter,
    pageExtra_eq_zero_of_not_readsOnly h hread, Nat.add_zero]

/-! ## The operand after a load (40_addressing_modes.md R100, R111) -/

/-- The value of an operand other than `A` depends on the index registers and the memory alone. -/
theorem operandValue_congr {o : Operand} {s t : State} (ho : o ≠ .acc) (hx : t.x = s.x) (hy : t.y = s.y)
    (hmem : t.mem = s.mem) : operandValue o t = operandValue o s := by
  cases o
  case acc => exact absurd rfl ho
  all_goals simp only [operandValue, resolve, readResolved, zeroPagePointer, read16, busRead_eq, hx, hy, hmem]

/-! ## `A` compared with its own value (45_arithmetic_compare.md R162) -/

theorem compareFlags_self (v : Byte) (f : Flags) : compareFlags v v f = { f with c := true, z := true, n := false } := by
  simp [compareFlags]

theorem exec_cmp_of_wf {o : Operand} (h : (Instr.cmp o).wf = true) (s : State) :
    exec (.cmp o) s = .next { s with
      flags := compareFlags s.a (operandValue o s) s.flags, cycleCount := cyclesAfter (.cmp o) s } :=
  retire_eq_cyclesAfter h rfl

theorem exec_cmp_of_operandValue_eq_a {o : Operand} (h : (Instr.cmp o).wf = true) {s : State} (ha : operandValue o s = s.a) :
    exec (.cmp o) s = .next { s with
      flags := { s.flags with c := true, z := true, n := false }, cycleCount := cyclesAfter (.cmp o) s } := by
  rw [exec_cmp_of_wf h, ha, compareFlags_self]

end Sys2Proof.Machine

namespace Sys2Proof.Proofs

open Sys2Proof.Machine

/-- Settles O38: each load ends in `retire` on the state with its register loaded. -/
theorem loadResults : Obligations.LoadResults := fun _ _ =>
  ⟨fun h => retire_eq_cyclesAfter h rfl, fun h => retire_eq_cyclesAfter h rfl, fun h => retire_eq_cyclesAfter h rfl⟩

/-- Settles O39: each store ends in `retire` on the state with its register written to the operand. -/
theorem storeResults : Obligations.StoreResults := fun _ s =>
  ⟨fun h => retire_store h (by simp [Instr.mnemonic]) s.a s, fun h => retire_store h (by simp [Instr.mnemonic]) s.x s,
    fun h => retire_store h (by simp [Instr.mnemonic]) s.y s⟩

/-- Settles O37: LDA and CMP have the same forms, and none of them has `A` as operand or in its address, so CMP compares
the loaded byte with itself. -/
theorem compareAfterLoadIsEqual : Obligations.CompareAfterLoadIsEqual := by
  intro o s t h
  have hlda : (Instr.lda o).wf = true := wf_of_exec h
  have hcmp : (Instr.cmp o).wf = true := hlda
  have ho : o ≠ .acc := operand_ne_acc hlda (by simp [Instr.mnemonic])
  obtain rfl := Host.Outcome.next.inj (((loadResults o s).1 hlda).symm.trans h)
  exact ⟨_, exec_cmp_of_operandValue_eq_a hcmp (operandValue_congr ho rfl rfl rfl), rfl, rfl, rfl, rfl⟩

end Sys2Proof.Proofs

/-! SUPPORT. Transfers, register increments and the stack instructions (42_transfer_stack.md, 46_incdec.md R172 to R175): a
rule under a charge with no page-crossing cycle, completed. -/

namespace Sys2Proof.Machine

/-- Under a charge with no page-crossing cycle, a rule that adds no cycles and counts none costs its row's base
(40_addressing_modes.md R113, 70_reset_and_hazards.md R270). -/
theorem retire_of_flat_charge {i : Instr} {n : Nat} (h : chargeOf i = some ⟨n, false⟩) {s t : State}
    (hcount : t.cycleCount = s.cycleCount) :
    retire (chargeOf i) i s 0 t = .next { t with cycleCount := s.cycleCount + n } := by
  rw [h, retire_some, ← hcount]
  rfl

end Sys2Proof.Machine

namespace Sys2Proof.Proofs

open Sys2Proof.Machine

/-- Settles O45: each rule loads one register with or without its flags, under a charge of 2 cycles. -/
theorem registerInstructionResults : Obligations.RegisterInstructionResults := fun _ =>
  ⟨retire_of_flat_charge (i := .tax) rfl rfl, retire_of_flat_charge (i := .tay) rfl rfl,
    retire_of_flat_charge (i := .txa) rfl rfl, retire_of_flat_charge (i := .tya) rfl rfl,
    retire_of_flat_charge (i := .tsx) rfl rfl, retire_of_flat_charge (i := .txs) rfl rfl,
    retire_of_flat_charge (i := .inx) rfl rfl, retire_of_flat_charge (i := .iny) rfl rfl,
    retire_of_flat_charge (i := .dex) rfl rfl, retire_of_flat_charge (i := .dey) rfl rfl⟩

/-- Settles O41: each rule is one push or one pull, at the address the statement writes as a sum, under a charge of 3 or 4
cycles. -/
theorem stackInstructionResults : Obligations.StackInstructionResults := by
  intro s
  simp only [stackAt_eq_stackAddr]
  exact ⟨retire_of_flat_charge (i := .pha) rfl rfl, retire_of_flat_charge (i := .php) rfl rfl,
    retire_of_flat_charge (i := .pla) rfl rfl, retire_of_flat_charge (i := .plp) rfl rfl⟩

end Sys2Proof.Proofs

/-! SUPPORT. Logical instructions and BIT (43_logical_bit.md): a result loaded into `A`, and one that sets flags alone,
completed. -/

namespace Sys2Proof.Machine

open Sys2Proof.Claims

/-- An instruction of the hardware that loads its result into `A`, completed (10_state.md R29, 70_reset_and_hazards.md
R270). -/
theorem retire_loadA {i : Instr} (h : i.wf = true) (v : Byte) (s : State) :
    retire (chargeOf i) i s 0 (loadA v s) = .next { s with
      a := v, flags := znOf v s.flags, cycleCount := cyclesAfter i s } :=
  retire_eq_cyclesAfter h (loadA_cycleCount v s)

/-- An instruction of the hardware that sets flags alone, completed (70_reset_and_hazards.md R270). -/
theorem retire_setFlags {i : Instr} (h : i.wf = true) (f : Flags) (s : State) :
    retire (chargeOf i) i s 0 (setFlags f s) = .next { s with flags := f, cycleCount := cyclesAfter i s } :=
  retire_eq_cyclesAfter h (setFlags_cycleCount f s)

end Sys2Proof.Machine

namespace Sys2Proof.Proofs

open Sys2Proof.Machine

/-- Settles O42: AND, ORA and EOR load their bitwise result into `A`; BIT sets the flags its mask and its operand's bits 7
and 6 give, and keeps `A`. -/
theorem logicalResults : Obligations.LogicalResults := fun o s =>
  ⟨fun h => retire_loadA h (s.a &&& operandValue o s) s, fun h => retire_loadA h (s.a ||| operandValue o s) s,
    fun h => retire_loadA h (s.a ^^^ operandValue o s) s,
    fun h => retire_setFlags h (bitFlags s.a (operandValue o s) s.flags) s⟩

end Sys2Proof.Proofs

/-! SUPPORT. Shifts and rotates (44_shift_rotate.md): the two places their operand lies in, and a shift completed in each. -/

namespace Sys2Proof.Machine

open Sys2Proof.Claims

/-- The operand of a shift is `A` or a byte of memory (44_shift_rotate.md, head). -/
theorem operand_eq_acc_or_storeAddr_of_shift {i : Instr} (h : i.wf = true)
    (hm : i.mnemonic ∈ [Mnemonic.asl, .lsr, .rol, .ror]) (s : State) :
    i.operand = .acc ∨ ∃ ea, storeAddr i.operand s = some ea := by
  have hne : i.mnemonic ≠ .undef := fun hu => by simp [hu] at hm
  have hmode : i.operand.mode ∈ i.mnemonic.modes := (wf_iff_of_ne_undef hne).mp h
  have hform : i.operand.mode ∈ [Mode.acc, .zp, .zpx, .abs, .absx] := by
    simp only [List.mem_cons, List.not_mem_nil, or_false] at hm
    obtain e | e | e | e := hm <;> rwa [e] at hmode
  cases hacc : i.operand
  case acc => exact .inl rfl
  all_goals
    rw [hacc] at hform
    exact .inr (storeAddr_isSome (by simp_all [Operand.mode]) s)

/-- The rule of a shift counts no cycles (70_reset_and_hazards.md R270). -/
theorem shiftOperand_cycleCount (f : Byte → ShiftResult) (o : Operand) (s : State) :
    (shiftOperand f o s).cycleCount = s.cycleCount := writeOperand_cycleCount o _ s

/-- An instruction that is a shift of its operand under its own charge does what `ShiftsOperand` says, where the bit
shifted out does not depend on the old carry. -/
theorem shiftsOperand_of_exec {mk : Operand → Instr} {f : Byte → Bool → ShiftResult} {out : Byte → Bool}
    (hoperand : ∀ o, (mk o).operand = o) (hmnemonic : ∀ o, (mk o).mnemonic ∈ [Mnemonic.asl, .lsr, .rol, .ror])
    (hout : ∀ v c, (f v c).cOut = out v)
    (hexec : ∀ o s, exec (mk o) s = retire (chargeOf (mk o)) (mk o) s 0 (shiftOperand (f · s.flags.c) o s)) :
    ShiftsOperand mk (fun v c => (f v c).r) out := by
  intro o s hwf
  have hplace := operand_eq_acc_or_storeAddr_of_shift hwf (hmnemonic o) s
  rw [hoperand] at hplace
  simp only [hexec, retire_eq_cyclesAfter hwf (shiftOperand_cycleCount _ o s), ← hout _ s.flags.c]
  obtain rfl | ⟨ea, hea⟩ := hplace
  · exact .inl ⟨rfl, by rw [shiftOperand_acc]; rfl⟩
  · exact .inr ⟨ea, hea, by rw [shiftOperand_of_storeAddr hea]; rfl⟩

end Sys2Proof.Machine

namespace Sys2Proof.Proofs

open Sys2Proof.Machine

/-- Settles O43: each rule is one shift of its operand, and only the rotates pass the old carry to theirs. -/
theorem shiftResults : Obligations.ShiftResults :=
  ⟨shiftsOperand_of_exec (f := fun v _ => shiftAsl v) (fun _ => rfl) (by simp [Instr.mnemonic]) (fun _ _ => rfl) fun _ _ => rfl,
    shiftsOperand_of_exec (f := fun v _ => shiftLsr v) (fun _ => rfl) (by simp [Instr.mnemonic]) (fun _ _ => rfl) fun _ _ => rfl,
    shiftsOperand_of_exec (f := shiftRol) (fun _ => rfl) (by simp [Instr.mnemonic]) (fun _ _ => rfl) fun _ _ => rfl,
    shiftsOperand_of_exec (f := shiftRor) (fun _ => rfl) (by simp [Instr.mnemonic]) (fun _ _ => rfl) fun _ _ => rfl⟩

end Sys2Proof.Proofs

/-! SUPPORT. Arithmetic and compare instructions (45_arithmetic_compare.md): the shared adder in integers, its overflow as
signed overflow, its ones'-complement use as subtraction with borrow, and an addition or a compare completed. -/

namespace Sys2Proof.Machine

open Sys2Proof.Claims

/-! ## The sign bit of a byte (45_arithmetic_compare.md R163) -/

theorem byte_getLsbD_seven (v : Byte) : v.getLsbD 7 = decide (128 ≤ v.toNat) := v.getLsbD_last

theorem byte_toInt_of_signBit (v : Byte) : v.toInt = if v.getLsbD 7 then (v.toNat : Int) - 256 else v.toNat :=
  v.toInt_eq_msb_cond

/-- Masking with `0x80` tests the sign bit. -/
theorem and_signMask_ne_zero_iff (v : Byte) : v &&& 0x80 ≠ 0 ↔ v.getLsbD 7 = true := by
  have hmask : v &&& 0x80 = if v.getLsbD 7 then 0x80 else 0 := v.and_twoPow 7
  rw [hmask]
  cases v.getLsbD 7 <;> decide

/-! ## The shared adder (45_arithmetic_compare.md R164) -/

theorem addCore_r_toNat (a m : Byte) (c : Bool) : (addCore a m c).r.toNat = (a.toNat + m.toNat + c.toNat) % 256 :=
  BitVec.toNat_ofNat _ 8

theorem addCore_cOut (a m : Byte) (c : Bool) : (addCore a m c).cOut = decide (255 < a.toNat + m.toNat + c.toNat) := rfl

theorem addCore_vOut (a m : Byte) (c : Bool) :
    (addCore a m c).vOut = decide (a.getLsbD 7 = m.getLsbD 7 ∧ (addCore a m c).r.getLsbD 7 ≠ a.getLsbD 7) := by
  have htest : ∀ x y z : Bool, ((x == y) && (z != x)) = decide (x = y ∧ z ≠ x) := by decide
  exact htest _ _ _

/-- The equal form of the overflow: both operands differ from the result in the sign bit. -/
theorem addCore_vOut_iff_xor (a m : Byte) (c : Bool) :
    (addCore a m c).vOut = true ↔ (a ^^^ (addCore a m c).r) &&& (m ^^^ (addCore a m c).r) &&& 0x80 ≠ 0 := by
  rw [addCore_vOut, and_signMask_ne_zero_iff, BitVec.getLsbD_and, BitVec.getLsbD_xor, BitVec.getLsbD_xor]
  have hbits : ∀ x y z : Bool, decide (x = y ∧ z ≠ x) = true ↔ ((x ^^ z) && (y ^^ z)) = true := by decide
  exact hbits _ _ _

/-- By cases on the operands' signs: the overflow says that the signed sum does not fit a byte. -/
theorem addCore_vOut_iff_signed (a m : Byte) (c : Bool) :
    (addCore a m c).vOut = true ↔
      (a.toInt + m.toInt + (c.toNat : Int) < -128 ∨ 127 < a.toInt + m.toInt + (c.toNat : Int)) := by
  have ha : a.toNat < 256 := a.isLt
  have hm : m.toNat < 256 := m.isLt
  have hc : c.toNat ≤ 1 := c.toNat_le
  rw [addCore_vOut, byte_toInt_of_signBit a, byte_toInt_of_signBit m]
  simp only [byte_getLsbD_seven, addCore_r_toNat, ne_eq, decide_eq_decide, decide_eq_true_eq]
  split <;> split <;> omega

/-! ## The adder on a ones' complement (45_arithmetic_compare.md R161) -/

/-- The result is the difference less the incoming borrow: `255 - m` is `-m - 1` modulo 256. -/
theorem addCore_not_r (a m : Byte) (c : Bool) : (addCore a (~~~m) c).r = a - m - (if c then 0 else 1) := by
  apply BitVec.eq_of_toNat_eq
  rw [addCore_r_toNat, BitVec.toNat_not]
  cases c
  · change (a.toNat + (255 - m.toNat) + 0) % 256 = (a - m - 1).toNat
    bv_omega
  · change (a.toNat + (255 - m.toNat) + 1) % 256 = (a - m - 0).toNat
    bv_omega

/-- The carry out says that no borrow was needed: `a + (255 - m) + c` exceeds 255 exactly when `a + c` exceeds `m`. -/
theorem addCore_not_cOut_iff (a m : Byte) (c : Bool) :
    (addCore a (~~~m) c).cOut = true ↔ m.toNat + (if c then 0 else 1) ≤ a.toNat := by
  have hm : m.toNat < 256 := m.isLt
  rw [addCore_cOut, BitVec.toNat_not, decide_eq_true_iff]
  cases c
  · change 255 < a.toNat + (255 - m.toNat) + 0 ↔ m.toNat + 1 ≤ a.toNat
    omega
  · change 255 < a.toNat + (255 - m.toNat) + 1 ↔ m.toNat + 0 ≤ a.toNat
    omega

/-! ## Completing an addition or a compare (70_reset_and_hazards.md R270) -/

/-- An instruction of the hardware that adds to `A`, completed. -/
theorem retire_addToA {i : Instr} (h : i.wf = true) (m : Byte) (s : State) :
    retire (chargeOf i) i s 0 (addToA m s) = .next { s with
      a := (addCore s.a m s.flags.c).r, flags := addFlags (addCore s.a m s.flags.c) s.flags
      cycleCount := cyclesAfter i s } :=
  retire_eq_cyclesAfter h rfl

/-- An instruction whose rule adds `operand m` to `A`, with `m` the operand's value, does what `AddsToA` says. -/
theorem addsToA_of_exec {mk : Operand → Instr} {operand : Byte → Byte}
    (hexec : ∀ o s, exec (mk o) s = retire (chargeOf (mk o)) (mk o) s 0 (addToA (operand (operandValue o s)) s)) :
    AddsToA mk operand := by
  intro o s hwf
  refine ⟨_, addCore_r_toNat s.a (operand (operandValue o s)) s.flags.c, ?_⟩
  rw [hexec, retire_addToA hwf, ← addCore_cOut, ← addCore_vOut]
  rfl

/-- SBC is the addition of the complemented operand (45_arithmetic_compare.md R161). -/
theorem exec_sbc_eq_retire (o : Operand) (s : State) :
    exec (.sbc o) s = retire (chargeOf (.sbc o)) (.sbc o) s 0 (addToA (~~~ operandValue o s) s) := rfl

/-- An instruction whose rule compares the register `reg` with its operand does what `ComparesRegister` says. -/
theorem comparesRegister_of_exec {mk : Operand → Instr} {reg : State → Byte}
    (hexec : ∀ o s, exec (mk o) s =
      retire (chargeOf (mk o)) (mk o) s 0 (setFlags (compareFlags (reg s) (operandValue o s) s.flags) s)) :
    ComparesRegister mk reg := by
  intro o s hwf
  rw [hexec, retire_setFlags hwf]
  rfl

end Sys2Proof.Machine

namespace Sys2Proof.Proofs

open Sys2Proof.Machine

/-- Settles O32: the adder's three outputs are its integer sum reduced, the test for a sum above 255, and the sign test. -/
theorem addCoreFormulas : Obligations.AddCoreFormulas := fun a m c =>
  ⟨addCore_r_toNat a m c, by rw [addCore_cOut, decide_eq_true_iff], by rw [addCore_vOut, decide_eq_true_iff],
    addCore_vOut_iff_xor a m c⟩

/-- Settles O33: the sign test holds exactly when the signed sum does not fit a byte, by cases on the operands' signs. -/
theorem overflowIsSignedOverflow : Obligations.OverflowIsSignedOverflow := addCore_vOut_iff_signed

/-- Settles O34: both rules are one addition to `A`, that of SBC with its operand complemented. -/
theorem addAndSubtractResults : Obligations.AddAndSubtractResults :=
  ⟨addsToA_of_exec fun _ _ => rfl,
    addsToA_of_exec fun o s => by rw [exec_sbc_eq_retire, ← BitVec.xor_allOnes]; rfl⟩

/-- Settles O35: `A + (255 - m) + C` is `A - m - (1 - C)` modulo 256, and its carry is the absence of a borrow. -/
theorem subtractIsWithBorrow : Obligations.SubtractIsWithBorrow := by
  intro o s t h
  rw [exec_sbc_eq_retire] at h
  obtain ⟨-, rfl⟩ := retire_eq_next.mp h
  exact ⟨addCore_not_r s.a (operandValue o s) s.flags.c, addCore_not_cOut_iff s.a (operandValue o s) s.flags.c⟩

/-- Settles O36: each compare sets the flags its register and its operand give, and nothing else. -/
theorem compareResults : Obligations.CompareResults :=
  ⟨comparesRegister_of_exec fun _ _ => rfl, comparesRegister_of_exec fun _ _ => rfl,
    comparesRegister_of_exec fun _ _ => rfl⟩

end Sys2Proof.Proofs

/-! SUPPORT. Increments and decrements of memory (46_incdec.md R170, R171): one read and one write of the effective
address, completed with the base count alone. -/

namespace Sys2Proof.Machine

open Sys2Proof.Claims

/-- INC and DEC write their operand as well as read it, so they pay for no crossing (40_addressing_modes.md R113). -/
theorem not_readsOnly_of_inc_or_dec {m : Mnemonic} (hm : m ∈ [Mnemonic.inc, .dec]) : ¬ ReadsOnly m := by
  revert m
  decide

/-- The rule of an increment or decrement counts no cycles (70_reset_and_hazards.md R270). -/
theorem storeResult_cycleCount (o : Operand) (r : Byte) (s : State) : (storeResult o r s).cycleCount = s.cycleCount :=
  writeOperand_cycleCount o r s

/-- An increment or decrement of the hardware stores `f` of the byte at its effective address, sets `Z` and `N` from it, and
counts its base. -/
theorem retire_storeResult {i : Instr} (h : i.wf = true) (hm : i.mnemonic ∈ [Mnemonic.inc, .dec]) (f : Byte → Byte)
    (s : State) :
    ∃ ea, storeAddr i.operand s = some ea ∧
      retire (chargeOf i) i s 0 (storeResult i.operand (f (operandValue i.operand s)) s) = .next { s with
        mem := s.mem.write ea (f (s.mem.read ea)), flags := znOf (f (s.mem.read ea)) s.flags
        cycleCount := s.cycleCount + baseCycles i } := by
  obtain ⟨ea, hea⟩ := storeAddr_of_stores h (List.mem_append_right [Mnemonic.sta, .stx, .sty] hm) s
  have hextra : pageExtra i s = 0 := pageExtra_eq_zero_of_not_readsOnly h (not_readsOnly_of_inc_or_dec hm) s
  refine ⟨ea, hea, ?_⟩
  rw [retire_eq_cyclesAfter h (storeResult_cycleCount _ _ s), operandValue_of_storeAddr hea, storeResult_of_storeAddr hea,
    cyclesAfter, hextra, Nat.add_zero]
  rfl

end Sys2Proof.Machine

namespace Sys2Proof.Proofs

open Sys2Proof.Machine

/-- Settles O44: both rules are one read-modify-write of the effective address, with successor and predecessor modulo 256. -/
theorem incrementMemoryResults : Obligations.IncrementMemoryResults := fun _ s =>
  ⟨fun h => retire_storeResult h (by simp [Instr.mnemonic]) (· + 1) s,
    fun h => retire_storeResult h (by simp [Instr.mnemonic]) (· - 1) s⟩

end Sys2Proof.Proofs

/-! SUPPORT. Jumps and branches (47_jump_branch.md): a branch completed on either side of its flag test, and a 16-bit pull of
what a 16-bit push left. -/

namespace Sys2Proof.Machine

open Sys2Proof.Claims

/-! ## Branches (47_jump_branch.md R183) -/

/-- An instruction that is the shared branch rule under a charge of 2 cycles does what the statements say of a branch: not
taken it costs the 2, taken one more, and another one to another page. -/
theorem branchesWhen_of_exec {mk : Byte → Instr} {cond : Flags → Bool}
    (hcharge : ∀ offset, chargeOf (mk offset) = some ⟨2, false⟩)
    (hexec : ∀ offset s, exec (mk offset) s = branch (chargeOf (mk offset)) (mk offset) (cond s.flags) offset s) :
    BranchesWhen mk cond := by
  intro offset s
  rw [hexec, hcharge]
  cases cond s.flags
  case false => rfl
  case true =>
    have hextra : branchExtra true (branchTarget s.pc offset) s.pc =
        if hiByte (s.pc + offset.signExtend 16) = hiByte s.pc then 1 else 2 := by
      simp [branchExtra, branchTarget]
    simp only [branch, retire_some, hextra]
    split <;> rfl

/-! ## Subroutines (47_jump_branch.md R181, R182) -/

theorem exec_jsr (target : Addr) (s : State) :
    exec (.jsr target) s = .next (addCycles 6 (setPc target (pushWord (s.pc - 1) s))) :=
  retire_of_flat_charge (i := .jsr target) rfl rfl

theorem exec_rts (s : State) : exec .rts s = .next (addCycles 6 (setPc ((pullWord s).1 + 1) (pullWord s).2)) :=
  retire_of_flat_charge (i := .rts) rfl rfl

theorem stackAddr_ne {p q : Byte} (h : p ≠ q) : stackAddr p ≠ stackAddr q := fun heq => h (stackAddr_inj.mp heq)

/-- A 16-bit pull answers the word pushed last, for every `SP`. -/
theorem pullWord_pushWord_value (w : Addr) (s : State) : (pullWord (pushWord w s)).1 = w := by
  have hlo : s.sp - 2#8 + 1#8 = s.sp - 1#8 := by bv_omega
  have hne : stackAddr (s.sp - 1#8) ≠ stackAddr (s.sp - 2#8) := stackAddr_ne (by bv_omega)
  simp only [pullWord_eq, pushWord_eq, Memory.read_write_same, BitVec.ofNat_eq_ofNat, hlo, Memory.read_write_of_ne _ _ hne,
    word16_hiByte_loByte]

end Sys2Proof.Machine

namespace Sys2Proof.Proofs

open Sys2Proof.Machine

/-- Settles O46: each rule sets `PC` and at most pushes or pulls one word, under a charge of 3, 5 or 6 cycles. -/
theorem jumpResults : Obligations.JumpResults := by
  simp only [Obligations.JumpResults, stackAt_eq_stackAddr]
  refine ⟨fun target s => retire_of_flat_charge (i := .jmp (.abs target)) rfl rfl,
    fun ptr s => retire_of_flat_charge (i := .jmp (.ind ptr)) rfl rfl, fun target s => ?_, fun s => ?_⟩
  · rw [exec_jsr, pushWord_eq]
    rfl
  · rw [exec_rts, pullWord_eq]
    rfl

/-- Settles O47: RTS pulls the word JSR pushed, which is one below the address it returns to. -/
theorem subroutineRoundTrip : Obligations.SubroutineRoundTrip := by
  intro target pc s t h
  rw [exec_jsr] at h
  obtain rfl := Host.Outcome.next.inj h
  refine ⟨_, exec_rts _, ?_, ?_, by simp⟩
  · calc (pullWord (pushWord (s.pc - 1) s)).1 + 1
      _ = s.pc - 1 + 1 := by rw [pullWord_pushWord_value]
      _ = s.pc := BitVec.sub_add_cancel s.pc 1
  · simp

/-- Settles O48: all eight share one rule, each with its own flag test. -/
theorem branchResults : Obligations.BranchResults :=
  ⟨branchesWhen_of_exec (fun _ => rfl) fun _ _ => rfl, branchesWhen_of_exec (fun _ => rfl) fun _ _ => rfl,
    branchesWhen_of_exec (fun _ => rfl) fun _ _ => rfl, branchesWhen_of_exec (fun _ => rfl) fun _ _ => rfl,
    branchesWhen_of_exec (fun _ => rfl) fun _ _ => rfl, branchesWhen_of_exec (fun _ => rfl) fun _ _ => rfl,
    branchesWhen_of_exec (fun _ => rfl) fun _ _ => rfl, branchesWhen_of_exec (fun _ => rfl) fun _ _ => rfl⟩

end Sys2Proof.Proofs

/-! SUPPORT. Flag instructions, BRK and RTI (48_flags_nop_system.md) and the exceptions (60_exceptions.md): the trap entry as
the statements write it, its undoing by RTI, and what a step and a move of the host do to the interrupt latches. -/

namespace Sys2Proof.Machine

open Sys2Proof.Claims

/-! ## Entering a trap (60_exceptions.md R225, R226, R230) -/

/-- A trap entry leaves the memory the statements write out. -/
theorem enterTrap_mem_eq_trapMemory (ret : Addr) (status : Byte) (vector : Addr) (s : State) :
    (enterTrap ret status vector s).mem = trapMemory ret status s := by
  simp only [enterTrap_mem, trapMemory, stackAt_eq_stackAddr]

/-- A trap entry as the statements write it. -/
theorem enterTrap_eq_trapMemory (ret : Addr) (status : Byte) (vector : Addr) (s : State) :
    enterTrap ret status vector s = { s with
      sp := s.sp - 3
      mem := trapMemory ret status s
      flags := { s.flags with i := true }
      pc := word16 ((trapMemory ret status s).read (vector + 1)) ((trapMemory ret status s).read vector) } := by
  rw [enterTrap_eq, enterTrap_mem_eq_trapMemory]

/-- The bits of the status byte a service pushes that the rules speak of: bit 5 is 1, bit 4 is 0 and bit 2 is `I`. -/
theorem serviceStatus_getLsbD (f : Flags) : (serviceStatus f).getLsbD 5 = true ∧ (serviceStatus f).getLsbD 4 = false ∧
    (serviceStatus f).getLsbD 2 = f.i := by
  have h := applyStatus_serviceStatus f
  exact ⟨congrArg Flags.u h, congrArg Flags.b h, congrArg Flags.i h⟩

/-! ## BRK and RTI (48_flags_nop_system.md R208, R209, 60_exceptions.md R231) -/

theorem exec_brk (s : State) :
    exec .brk s = .next (addCycles 7 (enterTrap (s.pc + 1) (compose s.flags ||| 0x10) irqVector s)) :=
  retire_of_flat_charge (i := .brk) rfl rfl

theorem exec_rti (s : State) : exec .rti s = .next (addCycles 6 (returnFromTrap s)) :=
  retire_of_flat_charge (i := .rti) rfl rfl

/-- Returning from a trap with the stack as its entry from `s` left it: `PC` and the flags come from the pushed bytes, `SP` is
that of `s` again. -/
theorem returnFromTrap_after_enterTrap {ret : Addr} {status : Byte} {vector : Addr} {s t : State}
    (hsp : t.sp = s.sp - 3) (hmem : t.mem = (enterTrap ret status vector s).mem) :
    returnFromTrap t = { t with sp := s.sp, flags := applyStatus status, pc := ret } := by
  have hsp0 : s.sp - 3#8 + 3#8 = s.sp := BitVec.sub_add_cancel s.sp 3#8
  have hlo : s.sp - 3#8 + 1#8 = s.sp - 2#8 := by bv_omega
  have hhi : s.sp - 3#8 + 2#8 = s.sp - 1#8 := by bv_omega
  have h23 : stackAddr (s.sp - 2#8) ≠ stackAddr (s.sp - 3#8) := stackAddr_ne (by bv_omega)
  have h13 : stackAddr (s.sp - 1#8) ≠ stackAddr (s.sp - 3#8) := stackAddr_ne (by bv_omega)
  have h12 : stackAddr (s.sp - 1#8) ≠ stackAddr (s.sp - 2#8) := stackAddr_ne (by bv_omega)
  simp [returnFromTrap_eq, hsp, hmem, hsp0, hlo, hhi, Memory.read_write_of_ne _ _ h23, Memory.read_write_of_ne _ _ h13,
    Memory.read_write_of_ne _ _ h12, word16_hiByte_loByte]

/-- RTI with the stack as a trap entry from `s` left it. -/
theorem exec_rti_after_enterTrap {ret : Addr} {status : Byte} {vector : Addr} {s t : State}
    (hsp : t.sp = s.sp - 3) (hmem : t.mem = (enterTrap ret status vector s).mem) :
    ∃ u, exec .rti t = .next u ∧ u.pc = ret ∧ u.sp = s.sp ∧ u.flags = applyStatus status ∧ u.a = t.a ∧ u.x = t.x ∧
      u.y = t.y :=
  ⟨_, exec_rti t, by simp [returnFromTrap_after_enterTrap hsp hmem]⟩

/-! ## Every instruction of the hardware completes (60_exceptions.md R241) -/

theorem exec_completes_of_wf {i : Instr} (h : i.wf = true) (s : State) : ∃ t, exec i s = .next t := by
  obtain ⟨extra, t, hexec⟩ := exec_eq_retire i s
  exact ⟨_, hexec.trans (retire_of_wf h s extra t)⟩

theorem exec_refused_of_not_wf {i : Instr} (h : i.wf = false) (s : State) : exec i s = .refused .noSuchForm := by
  obtain ⟨extra, t, hexec⟩ := exec_eq_retire i s
  exact hexec.trans (retire_of_not_wf h s extra t)

/-! ## The services as steps (60_exceptions.md R223) -/

theorem poll_of_nmiPending {s : State} (hn : s.nmiPending = true) : poll s = .serviceNmi := by
  simp [poll, hn]

theorem step_of_nmiPending {s : State} (hn : s.nmiPending = true) : step s = .next (serviceNMI s) := by
  simp [step, poll_of_nmiPending hn]

theorem step_of_irq_due {s : State} (hn : s.nmiPending = false) (hq : s.irqPending = true) (hi : s.flags.i = false) :
    step s = .next (serviceIRQ s) := by
  simp [step, poll, hn, hq, hi]

/-- A step that is not an instruction is one of the two services. -/
theorem service_of_poll {s t : State} (hp : poll s ≠ .executeInstruction) (h : step s = .next t) :
    t = serviceNMI s ∨ t = serviceIRQ s := by
  obtain ⟨-, hstep⟩ | ⟨-, -, -, hstep⟩ | ⟨hn, hq, -⟩ := step_cases s
  · exact .inl (Host.Outcome.next.inj (h.symm.trans hstep))
  · exact .inr (Host.Outcome.next.inj (h.symm.trans hstep))
  · exact absurd (poll_of_no_service hn hq) hp

/-! ## The interrupt latches (10_state.md R33, R34, 60_exceptions.md R222) -/

/-- An instruction writes neither latch. -/
theorem exec_keeps_latches {i : Instr} {s t : State} (h : exec i s = .next t) :
    t.nmiPending = s.nmiPending ∧ t.irqPending = s.irqPending := by
  obtain ⟨-, -, -, -, -, hlatches⟩ := Proofs.registerFrame i s t h
  exact hlatches

/-- A step keeps both latches, but for the NMI service, which keeps `IRQ_pending` only. -/
theorem step_latches {s t : State} (h : step s = .next t) :
    t.irqPending = s.irqPending ∧ (t.nmiPending = s.nmiPending ∨ t = serviceNMI s) := by
  obtain ⟨-, hstep⟩ | ⟨-, -, -, hstep⟩ | ⟨-, -, hstep⟩ := step_cases s
  · obtain rfl := Host.Outcome.next.inj (hstep.symm.trans h)
    exact ⟨serviceNMI_irqPending s, .inr rfl⟩
  · obtain rfl := Host.Outcome.next.inj (hstep.symm.trans h)
    exact ⟨serviceIRQ_irqPending s, .inl (serviceIRQ_nmiPending s)⟩
  · rw [hstep, executeNext_eq] at h
    obtain ⟨hn, hq⟩ := exec_keeps_latches h
    exact ⟨hq, .inl hn⟩

/-- A move of the host that is no `raise_irq` keeps `IRQ_pending`. -/
theorem hostMove_irqPending {move : HostMove} {s t : State} (h : hostMove move s = .next t)
    (hmove : ∀ level, move ≠ .raiseIrq level) : t.irqPending = s.irqPending := by
  cases move
  case step => exact (step_latches h).1
  case raiseIrq level => exact absurd rfl (hmove level)
  all_goals obtain rfl := Host.Outcome.next.inj h; rfl

/-- A move of the host keeps `NMI_pending`, but for `raise_nmi` and the NMI service. -/
theorem hostMove_nmiPending {move : HostMove} {s t : State} (h : hostMove move s = .next t) :
    t.nmiPending = s.nmiPending ∨ (move = .raiseNmi ∧ t.nmiPending = true) ∨ (move = .step ∧ t = serviceNMI s) := by
  cases move
  case step => exact (step_latches h).2.imp_right fun hs => .inr ⟨rfl, hs⟩
  case raiseNmi =>
    obtain rfl := Host.Outcome.next.inj h
    exact .inr (.inl ⟨rfl, rfl⟩)
  all_goals obtain rfl := Host.Outcome.next.inj h; exact .inl rfl

/-- A branch reads its flag test, `PC` and the offset, and no latch (47_jump_branch.md R183). -/
theorem branch_raiseIrq (charge : Charge) (i : Instr) (cond : Bool) (offset : Byte) (level : Bool) (s : State) :
    branch (some charge) i cond offset (raiseIrq level s) =
      mapNext (raiseIrq level) (branch (some charge) i cond offset s) := by
  have hcrossed : crossed i.operand (raiseIrq level s) = crossed i.operand s := by cases i.operand <;> rfl
  have hextra : charge.pageExtra i.operand (raiseIrq level s) = charge.pageExtra i.operand s := by
    rw [Charge.pageExtra, hcrossed, Charge.pageExtra]
  simp only [branch, retire_some, hextra]
  cases cond <;> rfl

/-- No instruction reads `IRQ_pending`: the level stands beside every meaning, whatever the operand's form. -/
theorem exec_raiseIrq (i : Instr) (level : Bool) (s : State) :
    exec i (raiseIrq level s) = mapNext (raiseIrq level) (exec i s) := by
  simp only [exec_eq_execCharged]
  cases chargeOf i
  case none => simp only [execCharged_none, mapNext]
  case some charge =>
    cases i
    case bcc | bcs | beq | bne | bmi | bpl | bvc | bvs =>
      exact branch_raiseIrq charge _ _ _ level s
    case lda o | ldx o | ldy o | sta o | stx o | sty o | and o | ora o | eor o | bit o | asl o | lsr o | rol o | ror o
      | adc o | sbc o | cmp o | cpx o | cpy o | inc o | dec o | jmp o => cases o <;> rfl
    all_goals rfl

end Sys2Proof.Machine

namespace Sys2Proof.Proofs

open Sys2Proof.Machine

/-- Settles O50: BRK is the trap entry through the IRQ/BRK vector, under a charge of 7 cycles. -/
theorem breakEntersHandler : Obligations.BreakEntersHandler := by
  intro s
  rw [exec_brk, enterTrap_eq_trapMemory]
  rfl

/-- Settles O52: each of the three pushes a status byte that unpacks to the old flags but for `U` and `B`. -/
theorem returnUndoesTrapEntry : Obligations.ReturnUndoesTrapEntry := by
  refine ⟨fun s t hp h => ?_, fun s t h => ?_⟩
  · rw [← applyStatus_serviceStatus]
    obtain rfl | rfl := service_of_poll hp h
    · simpa using exec_rti_after_enterTrap (serviceNMI_sp s) (serviceNMI_mem s)
    · simpa using exec_rti_after_enterTrap (serviceIRQ_sp s) (serviceIRQ_mem s)
  · rw [exec_brk] at h
    have ht := (Host.Outcome.next.inj h).symm
    have hrti := exec_rti_after_enterTrap (s := s) (t := t) (by rw [ht, addCycles_sp, enterTrap_sp])
      (by rw [ht, addCycles_mem])
    rw [← applyStatus_breakStatus]
    simpa [ht] using hrti

/-- Settles O49: each rule sets flags alone or nothing, under a charge of 2 cycles. -/
theorem flagInstructionResults : Obligations.FlagInstructionResults :=
  ⟨fun _ => retire_of_flat_charge (i := .clc) rfl rfl, fun _ => retire_of_flat_charge (i := .cld) rfl rfl,
    fun _ => retire_of_flat_charge (i := .cli) rfl rfl, fun _ => retire_of_flat_charge (i := .clv) rfl rfl,
    fun _ => retire_of_flat_charge (i := .sec) rfl rfl, fun _ => retire_of_flat_charge (i := .sed) rfl rfl,
    fun _ => retire_of_flat_charge (i := .sei) rfl rfl, fun _ => retire_of_flat_charge (i := .nop) rfl rfl,
    fun op hop _ => retire_of_flat_charge (i := .undef op) (chargeOf_of_wf ((undef_wf_iff op).mpr hop)) rfl⟩

/-- Settles O51: RTI is the return from a trap, under a charge of 6 cycles. -/
theorem returnFromInterruptResult : Obligations.ReturnFromInterruptResult := by
  intro s
  simp only [stackAt_eq_stackAddr]
  rw [exec_rti, returnFromTrap_eq]
  rfl

/-- Settles O4: a step keeps the latches but in the NMI service, and of the host's other moves only the two calls write them. -/
theorem latchesHaveTheirWritersOnly : Obligations.LatchesHaveTheirWritersOnly := by
  refine ⟨fun _ => rfl, fun _ _ => rfl, fun move s t h hne => ?_, fun move s t h hs ht => ?_, fun move s t h hs ht => ?_,
    exec_raiseIrq⟩
  · by_contra hmove
    exact hne (hostMove_irqPending h fun level heq => hmove ⟨level, heq⟩)
  · obtain hkeep | ⟨hmove, -⟩ | ⟨-, rfl⟩ := hostMove_nmiPending h
    · simp [hkeep, hs] at ht
    · exact hmove
    · simp at ht
  · obtain hkeep | ⟨-, hset⟩ | hservice := hostMove_nmiPending h
    · simp [hkeep, hs] at ht
    · simp [hset] at ht
    · exact hservice

/-- Settles O20: the poll decides the service; the pushed byte has bit 4 clear and bit 2 the `I` that let the IRQ through. -/
theorem stepServicesInterrupts : Obligations.StepServicesInterrupts := by
  refine ⟨fun _ => step_of_nmiPending, fun s hn hq hi => ?_⟩
  obtain ⟨-, hbit4, hbit2⟩ := serviceStatus_getLsbD s.flags
  refine ⟨?_, hbit4, hbit2.trans hi⟩
  rw [step_of_irq_due hn hq hi, serviceIRQ, enterTrap_eq_trapMemory]
  rfl

/-- Settles O53: every meaning ends in `retire`, which refuses exactly the ill-formed terms. -/
theorem onlyIllFormedTermsAreRefused : Obligations.OnlyIllFormedTermsAreRefused :=
  ⟨fun _ s h => exec_refused_of_not_wf h s, fun _ s h => exec_completes_of_wf h s⟩

/-- Settles O19: the NMI service is the trap entry through its vector, with the latch cleared. -/
theorem nmiServiceEntersItsHandler : Obligations.NmiServiceEntersItsHandler := by
  refine ⟨fun _ => poll_of_nmiPending, fun s => ?_, fun s => serviceStatus_getLsbD s.flags⟩
  rw [serviceNMI, enterTrap_eq_trapMemory]
  rfl

end Sys2Proof.Proofs

/-! SUPPORT. Reset and power-on (70_reset_and_hazards.md). -/

namespace Sys2Proof.Machine

/-- The status byte after reset. -/
theorem compose_resetFlags : compose resetFlags = 0x20 := by decide

end Sys2Proof.Machine

namespace Sys2Proof.Proofs

open Sys2Proof.Machine

/-- Settles O1: `hostReset` writes the list of R260 and reads the two bytes of the reset vector. -/
theorem resetWritesItsListAndLoadsVector : Obligations.ResetWritesItsListAndLoadsVector := fun _ =>
  ⟨rfl, compose_resetFlags, rfl⟩

/-- Settles O2: both clauses are the definitions of power-on and of the state after reset. -/
theorem powerOnState : Obligations.PowerOnState := ⟨fun _ => rfl, rfl⟩

end Sys2Proof.Proofs
